-- ==== Sys2Proof/Word.lean ====
section
/-! DEFINITION. The words of the BitBuffer engine: widths fixed by 00_scope.md R9 and 30_encoding.md R61, R64. -/

namespace Sys2Proof

/-- One byte of a buffer (10_state.md R21). -/
abbrev Byte := BitVec 8

/-- A command word `CW` (30_encoding.md R61): 128 bits, `CW[127]` most significant. -/
abbrev CommandWord := BitVec 128

/-- A response word `RSP` (30_encoding.md R64): `STATUS` in bits 71:64, `RESULT` in bits 63:0. -/
abbrev ResponseWord := BitVec 72

/-- The `RESULT` field of a response (30_encoding.md R64). -/
abbrev ResultWord := BitVec 64

/-- A buffer index as a command names it: 4 bits (00_scope.md R6, R9; 30_encoding.md R62). -/
abbrev BufferIndex := BitVec 4

end Sys2Proof
end

