-- ==== Sys2Proof/Syntax.lean ====
section
/-! DEFINITION. The 17 commands of 30_encoding.md R66 with their operands in the order of R74.
A buffer index is the 4-bit field that names it; positions, lengths, offsets, counts and block sizes are numbers, as
R72 reads them (their sums never wrap), and WellFormed.lean says which of them a command word can hold; data values are
bit vectors of the field's width (DESIGN CHOICE, safe: log 13). -/

namespace Sys2Proof

/-- The parity kinds of 30_encoding.md R73. -/
inductive ParityKind where
  | even | odd | always0 | always1
deriving DecidableEq, Repr

/-- The 17 operations of 30_encoding.md R66, in the table's order. -/
inductive Opcode where
  | getBit | setBit | getBits8 | getBits16 | getBits32 | getBits64 | setBits | copyBits | reverseBits | pushBit
  | testParity32 | genParity32 | checkParity | crc8 | crc16 | crc8Chk | crc16Chk
deriving DecidableEq, Repr

/-- A command with its operands, one constructor for each row of spec/opcode_table.json. -/
inductive Instr where
  /-- `GET_BIT b, pos` (R90). -/
  | getBit (b : BufferIndex) (pos : Nat)
  /-- `SET_BIT b, pos, bit` (R91). -/
  | setBit (b : BufferIndex) (pos : Nat) (bit : Bool)
  /-- `GET_BITS8 b, pos, len` (R101). -/
  | getBits8 (b : BufferIndex) (pos len : Nat)
  /-- `GET_BITS16 b, pos, len` (R102). -/
  | getBits16 (b : BufferIndex) (pos len : Nat)
  /-- `GET_BITS32 b, pos, len` (R103). -/
  | getBits32 (b : BufferIndex) (pos len : Nat)
  /-- `GET_BITS64 b, pos, len` (R104). -/
  | getBits64 (b : BufferIndex) (pos len : Nat)
  /-- `SET_BITS b, pos, val, len` (R110). -/
  | setBits (b : BufferIndex) (pos : Nat) (val : Byte) (len : Nat)
  /-- `COPY_BITS dst, dst_pos, src, src_pos, len` (R111). -/
  | copyBits (dst : BufferIndex) (dstPos : Nat) (src : BufferIndex) (srcPos len : Nat)
  /-- `REVERSE_BITS b, pos, len` (R120). -/
  | reverseBits (b : BufferIndex) (pos len : Nat)
  /-- `PUSH_BIT b, bit` (R121). -/
  | pushBit (b : BufferIndex) (bit : Bool)
  /-- `TEST_PARITY32 value, kind` (R131). -/
  | testParity32 (value : BitVec 32) (kind : ParityKind)
  /-- `GEN_PARITY32 value, kind` (R132). -/
  | genParity32 (value : BitVec 32) (kind : ParityKind)
  /-- `CHECK_PARITY b, pos, len, kind, bsz` (R133). -/
  | checkParity (b : BufferIndex) (pos len : Nat) (kind : ParityKind) (bsz : Nat)
  /-- `CRC8 b, off, cnt, poly, init, refin, refout, xorout` (R148). -/
  | crc8 (b : BufferIndex) (off cnt : Nat) (poly init : BitVec 8) (refin refout : Bool) (xorout : BitVec 8)
  /-- `CRC16 b, off, cnt, poly, init, refin, refout, xorout` (R149). -/
  | crc16 (b : BufferIndex) (off cnt : Nat) (poly init : BitVec 16) (refin refout : Bool) (xorout : BitVec 16)
  /-- `CRC8_CHK b, off, cnt, poly, init, refin, refout, xorout, expect` (R150). -/
  | crc8Chk (b : BufferIndex) (off cnt : Nat) (poly init : BitVec 8) (refin refout : Bool) (xorout expect : BitVec 8)
  /-- `CRC16_CHK b, off, cnt, poly, init, refin, refout, xorout, expect` (R151). -/
  | crc16Chk (b : BufferIndex) (off cnt : Nat) (poly init : BitVec 16) (refin refout : Bool) (xorout expect : BitVec 16)
deriving DecidableEq, Repr

/-- The operation of a command. -/
def Instr.opcode : Instr → Opcode
  | .getBit .. => .getBit
  | .setBit .. => .setBit
  | .getBits8 .. => .getBits8
  | .getBits16 .. => .getBits16
  | .getBits32 .. => .getBits32
  | .getBits64 .. => .getBits64
  | .setBits .. => .setBits
  | .copyBits .. => .copyBits
  | .reverseBits .. => .reverseBits
  | .pushBit .. => .pushBit
  | .testParity32 .. => .testParity32
  | .genParity32 .. => .genParity32
  | .checkParity .. => .checkParity
  | .crc8 .. => .crc8
  | .crc16 .. => .crc16
  | .crc8Chk .. => .crc8Chk
  | .crc16Chk .. => .crc16Chk

end Sys2Proof
end

