-- ==== Sys2Proof/WellFormed.lean ====
section
/-! DEFINITION. Which commands a command word can hold: every number fits its field (30_encoding.md R62, R65).
Nothing else is a matter of form: a length, a kind or a span that the command turns away still has a word, and the
engine, not the decoder, refuses it (R72: "the legal range of each field is checked by the command's own rule"). -/

namespace Sys2Proof

/-- The number fits a 16-bit field (`POS`, `LEN`, `POSB`, `OFF`, `CNT`). -/
def fits16 (n : Nat) : Bool := decide (n < 65536)

/-- The number fits the 8-bit field `CW[7:0]` (`BSZ`). -/
def fits8 (n : Nat) : Bool := decide (n < 256)

/-- The command has a command word. -/
def Instr.wellFormed : Instr → Bool
  | .getBit _ pos => fits16 pos
  | .setBit _ pos _ => fits16 pos
  | .getBits8 _ pos len => fits16 pos && fits16 len
  | .getBits16 _ pos len => fits16 pos && fits16 len
  | .getBits32 _ pos len => fits16 pos && fits16 len
  | .getBits64 _ pos len => fits16 pos && fits16 len
  | .setBits _ pos _ len => fits16 pos && fits16 len
  | .copyBits _ dstPos _ srcPos len => fits16 dstPos && fits16 srcPos && fits16 len
  | .reverseBits _ pos len => fits16 pos && fits16 len
  | .pushBit _ _ => true
  | .testParity32 _ _ => true
  | .genParity32 _ _ => true
  | .checkParity _ pos len _ bsz => fits16 pos && fits16 len && fits8 bsz
  | .crc8 _ off cnt _ _ _ _ _ => fits16 off && fits16 cnt
  | .crc16 _ off cnt _ _ _ _ _ => fits16 off && fits16 cnt
  | .crc8Chk _ off cnt _ _ _ _ _ _ => fits16 off && fits16 cnt
  | .crc16Chk _ off cnt _ _ _ _ _ _ => fits16 off && fits16 cnt

end Sys2Proof
end

