-- ==== Sys2Proof/Decode.lean ====
section
/-! DEFINITION. The decoder and the encoder of the command word, from 30_encoding.md R61 to R73.
Every 128-bit word either decodes to one command with one set of operands or is rejected by name (R68, R69). -/

namespace Sys2Proof

/-- Why a word is no command. Both reasons are the engine's fault ILLEGAL_COMMAND (60_exceptions.md R166). -/
inductive DecodeError where
  /-- Opcode `0x00` or `0x12` to `0xFF` (R68). -/
  | reservedOpcode
  /-- A one bit in a must-be-zero range of the opcode (R69). -/
  | mustBeZero
deriving DecidableEq, Repr

/-- `CW[hi:lo]` as a number: `floor(v / 2^lo) mod 2^(hi-lo+1)` (00_scope.md section 5.1). -/
def slice (cw : CommandWord) (hi lo : Nat) : Nat := cw.toNat / 2 ^ lo % 2 ^ (hi - lo + 1)

/-- `CW[i]` as a truth value (`REFIN`, `REFOUT`, `BIT`: 1 is true, R72). -/
def flagBit (cw : CommandWord) (i : Nat) : Bool := slice cw i i == 1

/-- `CW[127:120]`, the opcode byte of any word (R61). -/
def opcodeOf (cw : CommandWord) : Byte := BitVec.ofNat 8 (slice cw 127 120)

/-- The opcode numbers of R66. -/
def opcodeByte : Opcode → Byte
  | .getBit => 0x01
  | .setBit => 0x02
  | .getBits8 => 0x03
  | .getBits16 => 0x04
  | .getBits32 => 0x05
  | .getBits64 => 0x06
  | .setBits => 0x07
  | .copyBits => 0x08
  | .reverseBits => 0x09
  | .pushBit => 0x0A
  | .testParity32 => 0x0B
  | .genParity32 => 0x0C
  | .checkParity => 0x0D
  | .crc8 => 0x0E
  | .crc16 => 0x0F
  | .crc8Chk => 0x10
  | .crc16Chk => 0x11

/-- The 17 operations of R66. -/
def allOpcodes : List Opcode :=
  [.getBit, .setBit, .getBits8, .getBits16, .getBits32, .getBits64, .setBits, .copyBits, .reverseBits, .pushBit,
   .testParity32, .genParity32, .checkParity, .crc8, .crc16, .crc8Chk, .crc16Chk]

/-- The operation an opcode byte names; none where the byte is reserved (R68). -/
def opcodeOfByte (v : Byte) : Option Opcode := allOpcodes.find? fun o => opcodeByte o == v

/-- The must-be-zero ranges `[hi:lo]` of R67 for each command. -/
def mustBeZero : Opcode → List (Nat × Nat)
  | .getBit => [(119, 116), (95, 80), (79, 64), (63, 0)]
  | .setBit => [(119, 116), (95, 80), (79, 64), (63, 1)]
  | .getBits8 => [(119, 116), (79, 64), (63, 0)]
  | .getBits16 => [(119, 116), (79, 64), (63, 0)]
  | .getBits32 => [(119, 116), (79, 64), (63, 0)]
  | .getBits64 => [(119, 116), (79, 64), (63, 0)]
  | .setBits => [(119, 116), (79, 64), (63, 8)]
  | .copyBits => [(63, 0)]
  | .reverseBits => [(119, 116), (79, 64), (63, 0)]
  | .pushBit => [(119, 116), (111, 96), (95, 80), (79, 64), (63, 1)]
  | .testParity32 => [(119, 34)]
  | .genParity32 => [(119, 34)]
  | .checkParity => [(119, 116), (79, 64), (63, 34), (31, 8)]
  | .crc8 => [(119, 116), (79, 66), (63, 56), (47, 40), (31, 24), (15, 0)]
  | .crc16 => [(119, 116), (79, 66), (15, 0)]
  | .crc8Chk => [(119, 116), (79, 66), (63, 56), (47, 40), (31, 24), (15, 8)]
  | .crc16Chk => [(119, 116), (79, 66)]

/-- Every must-be-zero bit of the command is zero in the word (R69). -/
def reservedZero (o : Opcode) (cw : CommandWord) : Bool := (mustBeZero o).all fun r => slice cw r.1 r.2 == 0

/-- The 2-bit encoding of a parity kind (R73). -/
def kindCode : ParityKind → Nat
  | .even => 0
  | .odd => 1
  | .always0 => 2
  | .always1 => 3

/-- The parity kind a `KIND` field names; all four values are defined (R73). -/
def kindOfCode (n : Nat) : ParityKind :=
  if n = 0 then .even else if n = 1 then .odd else if n = 2 then .always0 else .always1

/-- `BUFA = CW[115:112]`. -/
def bufaOf (cw : CommandWord) : BufferIndex := BitVec.ofNat 4 (slice cw 115 112)

/-- `BUFB = CW[119:116]`. -/
def bufbOf (cw : CommandWord) : BufferIndex := BitVec.ofNat 4 (slice cw 119 116)

/-- `POS = CW[111:96]`, which is `OFF` in format C. -/
def posOf (cw : CommandWord) : Nat := slice cw 111 96

/-- `LEN = CW[95:80]`, which is `CNT` in format C. -/
def lenOf (cw : CommandWord) : Nat := slice cw 95 80

/-- `POSB = CW[79:64]`. -/
def posbOf (cw : CommandWord) : Nat := slice cw 79 64

/-- `KIND = CW[33:32]`. -/
def kindOf (cw : CommandWord) : ParityKind := kindOfCode (slice cw 33 32)

/-- The command with the operation `o` whose operands stand in the fields of the word (R62, R63, R65, R67). -/
def operandsOf (o : Opcode) (cw : CommandWord) : Instr :=
  match o with
  | .getBit => .getBit (bufaOf cw) (posOf cw)
  | .setBit => .setBit (bufaOf cw) (posOf cw) (flagBit cw 0)
  | .getBits8 => .getBits8 (bufaOf cw) (posOf cw) (lenOf cw)
  | .getBits16 => .getBits16 (bufaOf cw) (posOf cw) (lenOf cw)
  | .getBits32 => .getBits32 (bufaOf cw) (posOf cw) (lenOf cw)
  | .getBits64 => .getBits64 (bufaOf cw) (posOf cw) (lenOf cw)
  | .setBits => .setBits (bufaOf cw) (posOf cw) (BitVec.ofNat 8 (slice cw 7 0)) (lenOf cw)
  | .copyBits => .copyBits (bufaOf cw) (posOf cw) (bufbOf cw) (posbOf cw) (lenOf cw)
  | .reverseBits => .reverseBits (bufaOf cw) (posOf cw) (lenOf cw)
  | .pushBit => .pushBit (bufaOf cw) (flagBit cw 0)
  | .testParity32 => .testParity32 (BitVec.ofNat 32 (slice cw 31 0)) (kindOf cw)
  | .genParity32 => .genParity32 (BitVec.ofNat 32 (slice cw 31 0)) (kindOf cw)
  | .checkParity => .checkParity (bufaOf cw) (posOf cw) (lenOf cw) (kindOf cw) (slice cw 7 0)
  | .crc8 =>
    .crc8 (bufaOf cw) (posOf cw) (lenOf cw) (BitVec.ofNat 8 (slice cw 55 48)) (BitVec.ofNat 8 (slice cw 39 32))
      (flagBit cw 65) (flagBit cw 64) (BitVec.ofNat 8 (slice cw 23 16))
  | .crc16 =>
    .crc16 (bufaOf cw) (posOf cw) (lenOf cw) (BitVec.ofNat 16 (slice cw 63 48)) (BitVec.ofNat 16 (slice cw 47 32))
      (flagBit cw 65) (flagBit cw 64) (BitVec.ofNat 16 (slice cw 31 16))
  | .crc8Chk =>
    .crc8Chk (bufaOf cw) (posOf cw) (lenOf cw) (BitVec.ofNat 8 (slice cw 55 48)) (BitVec.ofNat 8 (slice cw 39 32))
      (flagBit cw 65) (flagBit cw 64) (BitVec.ofNat 8 (slice cw 23 16)) (BitVec.ofNat 8 (slice cw 7 0))
  | .crc16Chk =>
    .crc16Chk (bufaOf cw) (posOf cw) (lenOf cw) (BitVec.ofNat 16 (slice cw 63 48)) (BitVec.ofNat 16 (slice cw 47 32))
      (flagBit cw 65) (flagBit cw 64) (BitVec.ofNat 16 (slice cw 31 16)) (BitVec.ofNat 16 (slice cw 15 0))

/-- The decoder: steps 2 and 3 of 30_encoding.md R71, then the operands. -/
def decode (cw : CommandWord) : Except DecodeError Instr :=
  match opcodeOfByte (opcodeOf cw) with
  | none => .error .reservedOpcode
  | some o => if reservedZero o cw then .ok (operandsOf o cw) else .error .mustBeZero

/-- A word from its fields: each entry is a value and the number of the lowest bit it stands at. -/
def assemble : List (Nat × Nat) → Nat
  | [] => 0
  | (v, lo) :: rest => v * 2 ^ lo + assemble rest

/-- The operand fields of a command with their places (R62, R63, R65); what is not listed is zero. -/
def fieldsOf : Instr → List (Nat × Nat)
  | .getBit b pos => [(b.toNat, 112), (pos, 96)]
  | .setBit b pos bit => [(b.toNat, 112), (pos, 96), (bit.toNat, 0)]
  | .getBits8 b pos len => [(b.toNat, 112), (pos, 96), (len, 80)]
  | .getBits16 b pos len => [(b.toNat, 112), (pos, 96), (len, 80)]
  | .getBits32 b pos len => [(b.toNat, 112), (pos, 96), (len, 80)]
  | .getBits64 b pos len => [(b.toNat, 112), (pos, 96), (len, 80)]
  | .setBits b pos val len => [(b.toNat, 112), (pos, 96), (len, 80), (val.toNat, 0)]
  | .copyBits dst dstPos src srcPos len =>
    [(src.toNat, 116), (dst.toNat, 112), (dstPos, 96), (len, 80), (srcPos, 64)]
  | .reverseBits b pos len => [(b.toNat, 112), (pos, 96), (len, 80)]
  | .pushBit b bit => [(b.toNat, 112), (bit.toNat, 0)]
  | .testParity32 value kind => [(kindCode kind, 32), (value.toNat, 0)]
  | .genParity32 value kind => [(kindCode kind, 32), (value.toNat, 0)]
  | .checkParity b pos len kind bsz => [(b.toNat, 112), (pos, 96), (len, 80), (kindCode kind, 32), (bsz, 0)]
  | .crc8 b off cnt poly init refin refout xorout =>
    [(b.toNat, 112), (off, 96), (cnt, 80), (refin.toNat, 65), (refout.toNat, 64), (poly.toNat, 48), (init.toNat, 32),
     (xorout.toNat, 16)]
  | .crc16 b off cnt poly init refin refout xorout =>
    [(b.toNat, 112), (off, 96), (cnt, 80), (refin.toNat, 65), (refout.toNat, 64), (poly.toNat, 48), (init.toNat, 32),
     (xorout.toNat, 16)]
  | .crc8Chk b off cnt poly init refin refout xorout expect =>
    [(b.toNat, 112), (off, 96), (cnt, 80), (refin.toNat, 65), (refout.toNat, 64), (poly.toNat, 48), (init.toNat, 32),
     (xorout.toNat, 16), (expect.toNat, 0)]
  | .crc16Chk b off cnt poly init refin refout xorout expect =>
    [(b.toNat, 112), (off, 96), (cnt, 80), (refin.toNat, 65), (refout.toNat, 64), (poly.toNat, 48), (init.toNat, 32),
     (xorout.toNat, 16), (expect.toNat, 0)]

/-- The command word of a well-formed command. -/
def encode (i : Instr) : CommandWord :=
  BitVec.ofNat 128 (assemble (((opcodeByte i.opcode).toNat, 120) :: fieldsOf i))

/-- The command word whose bits are `w` as spec/opcode_table.json numbers them (`CW[0]` is bit 0), with every bit from
`nbits` up zero. -/
def tableWord (nbits w : Nat) : CommandWord := BitVec.ofNat 128 (w % 2 ^ nbits)

/-- What the decoder reads from a word numbered as spec/opcode_table.json numbers it; none where it refuses. -/
def decodeTableWord (nbits w : Nat) : Option Instr :=
  match decode (tableWord nbits w) with
  | .ok i => some i
  | .error _ => none

end Sys2Proof
end

