-- ==== Sys2Proof/Config.lean ====
section
/-! DEFINITION. The implementation parameters of 00_scope.md R6 to R8, as plain data.
They are constant for the life of the engine (10_state.md R28). A state carries them in a field that no step changes,
so that a statement about every state is a statement about every configuration (DESIGN CHOICE, safe: log 1). -/

namespace Sys2Proof

/-- `(NBUF, NBYTES, EVEN_PASS_PARITY)` (00_scope.md R6, R7, R8). -/
structure Config where
  /-- `NBYTES(0), NBYTES(1), …`: one length in bytes for each buffer; `NBUF` is how many there are. -/
  nbytes : List Nat
  /-- `EVEN_PASS_PARITY`, an OPEN parameter (92 D16): the value of popcount mod 2 for which EVEN passes (`true` is 1). -/
  evenPassParity : Bool
deriving DecidableEq, Repr

/-- `NBUF` (R6). -/
def Config.nbuf (c : Config) : Nat := c.nbytes.length

/-- `NBYTES(b)` (R7); a buffer that does not exist has no byte. -/
def Config.nbytesOf (c : Config) (b : BufferIndex) : Nat := c.nbytes.getD b.toNat 0

/-- `NBITS(b) = 8*NBYTES(b)` (R7). -/
def Config.nbits (c : Config) (b : BufferIndex) : Nat := 8 * c.nbytesOf b

/-- The ranges R6 and R7 give the parameters: `1 <= NBUF <= 16`, `1 <= NBYTES(b) <= 8191`. -/
def Config.wf (c : Config) : Bool :=
  decide (1 ≤ c.nbuf) && decide (c.nbuf ≤ 16) && c.nbytes.all fun n => decide (1 ≤ n) && decide (n ≤ 8191)

/-- The configuration of the spec's reference state (95_test_vectors.md, Notation): two buffers of 16 bytes, and the
recommended `EVEN_PASS_PARITY = 0` (R8). DESIGN CHOICE, unsafe where a statement rests on it: log 2 and log 3. -/
def Config.reference : Config := { nbytes := [16, 16], evenPassParity := false }

end Sys2Proof
end

