-- ==== Sys2Proof/Machine/State.lean ====
section
/-! DEFINITION. The state of the engine as plain data: the spec's `(BUF, FSR)` (10_state.md R20), the parameters
(R28), and the two ends of the command interface (30_encoding.md R60), which are the model's own fields. -/

namespace Sys2Proof.Machine

/-- Storage as (address, byte) cells in one canonical form (Memory.wf in Ops.lean); byte `k` of buffer `b` has the
address `16*k + b` (DESIGN CHOICE, safe: log 10). -/
abbrev Memory := List Host.Cell

/-- What an address that is not listed reads as. The spec fixes no reset contents (10_state.md R29: `INIT_BUF` is an
input), so this byte is the model's (DESIGN CHOICE, unsafe for a statement that starts at `State.reset`: log 4). -/
def unlistedByte : Byte := 0x00

/-- The host's moves (70_reset_and_hazards.md R190, R195; 92 D28): there are no others. -/
inductive HostMove where
  /-- Present one command word (30_encoding.md R60). -/
  | command (cw : CommandWord)
  /-- Reset, handing over `INIT_BUF` as (address, byte) cells; what is not listed is `unlistedByte` (R190; log 5). -/
  | reset (init : List Host.Cell)
deriving DecidableEq, Repr

/-- The whole state. -/
structure State where
  /-- The implementation parameters (00_scope.md R6 to R8); no step changes them (10_state.md R28). -/
  cfg : Config
  /-- `BUF` (10_state.md R21). -/
  mem : Memory
  /-- `FSR`, the fault status register (10_state.md R25). -/
  fsr : BitVec 16
  /-- The model's own: the moves the host will make, next first. It is the host's schedule and no queue of the engine
  (R60; DESIGN CHOICE, safe: log 6). -/
  pending : List HostMove
  /-- The model's own: the response word the last step produced, none where it produced none. It is the output of the
  step and nothing reads it (R20, R60; DESIGN CHOICE, safe: log 7). -/
  rsp : Option ResponseWord
deriving DecidableEq, Repr

/-- How a step can stop. The spec's five faults are NOT here: they are taken, and give a next state
(60_exceptions.md R171; log 9). -/
inductive Fault where
  /-- Raised by `step` alone, where `pending` is empty: the host makes no move, so there is no command word and R60
  gives no step. Safe: the model stops where the engine waits (log 8). -/
  | noHostMove
deriving DecidableEq, Repr

/-- What the model does not give a meaning. -/
inductive Refusal where
  /-- Raised by an arm of `exec` for a command without a meaning. Safe. No arm raises it: all 17 commands have theirs. -/
  | notModelled (mnemonic : String)
deriving DecidableEq, Repr

/-- Right after reset (R29, R190, R191): `FSR = 0x0000`; no cell listed; the reference configuration (log 2, 3); the
host has made no move yet. -/
def State.reset : State := { cfg := Config.reference, mem := [], fsr := 0x0000, pending := [], rsp := none }

end Sys2Proof.Machine
end

