-- ==== Sys2Proof/Machine/Flags.lean ====
section
/-! DEFINITION. The one flag and the one status register of the engine (10_state.md R25, R26), the cause and status
codes (60_exceptions.md R165, 30_encoding.md R64) and the response word. No command writes a condition code (R26). -/

namespace Sys2Proof.Machine

/-- The five fault causes of 60_exceptions.md R165, in the order of their codes, which is their priority (R177). -/
inductive Cause where
  | illegalCommand | badBuffer | badKind | badLength | outOfRange
deriving DecidableEq, Repr

/-- The cause codes of R165. -/
def causeCode : Cause → BitVec 4
  | .illegalCommand => 0x1
  | .badBuffer => 0x2
  | .badKind => 0x3
  | .badLength => 0x4
  | .outOfRange => 0x5

/-- `STATUS` of a completed command (R64). -/
def statusOk : BitVec 8 := 0x00

/-- `STATUS` of a command presented to a halted engine (R64, R173). -/
def statusHalted : BitVec 8 := 0x0F

/-- `STATUS` of a command that ended in a fault: the cause code (R64, R165). -/
def statusOfCause (c : Cause) : BitVec 8 := (causeCode c).setWidth 8

/-- `RSP[71:64] = STATUS`, `RSP[63:0] = RESULT` (R64). -/
def responseWord (status : BitVec 8) (result : ResultWord) : ResponseWord := status ++ result

/-- `RSP[71:64]` (R64). -/
def statusField (r : ResponseWord) : BitVec 8 := r.extractLsb' 64 8

/-- `RSP[63:0]` (R64). -/
def resultField (r : ResponseWord) : ResultWord := r.extractLsb' 0 64

/-- `FSR.FAULTED = FSR[15]` (R25). -/
def faultedBit (fsr : BitVec 16) : Bool := fsr.getLsbD 15

/-- `FSR[14:12]`, reserved (R25). -/
def reservedField (fsr : BitVec 16) : BitVec 3 := fsr.extractLsb' 12 3

/-- `FSR.CAUSE = FSR[11:8]` (R25). -/
def causeField (fsr : BitVec 16) : BitVec 4 := fsr.extractLsb' 8 4

/-- `FSR.OP = FSR[7:0]` (R25). -/
def opField (fsr : BitVec 16) : BitVec 8 := fsr.extractLsb' 0 8

/-- What fault entry writes to `FSR`: `0x8000 or (c << 8) or CW[127:120]` (60_exceptions.md R171). -/
def faultWord (c : Cause) (op : Byte) : BitVec 16 :=
  0x8000#16 ||| ((causeCode c).setWidth 16 <<< 8) ||| op.setWidth 16

/-- The engine is halted (60_exceptions.md R173). -/
def halted (s : State) : Bool := faultedBit s.fsr

end Sys2Proof.Machine
end

