-- ==== Sys2Proof/Machine/Operands.lean ====
section
/-! DEFINITION. The operand forms and their checks: steps 4 to 7 of 30_encoding.md R71.
A command has one addressing form, (buffer, bit position, length), and the CRC commands (buffer, byte, count)
(20_memory.md R40). Every check is on the operands and the configuration only. -/

namespace Sys2Proof.Machine

/-- A buffer index names no buffer: `b >= NBUF` (60_exceptions.md R167). -/
def badBuffer (s : State) (b : BufferIndex) : Bool := decide (s.cfg.nbuf ≤ b.toNat)

/-- A length operand is zero or above the command's limit (R169). -/
def badLength (maxLen len : Nat) : Bool := decide (len = 0) || decide (maxLen < len)

/-- `TEST_PARITY32` takes EVEN and ODD only (R168). -/
def badTestKind : ParityKind → Bool
  | .even => false
  | .odd => false
  | .always0 => true
  | .always1 => true

/-- A span of bits does not lie in the buffer: not `pos + len <= NBITS(b)`, the sum as a number (20_memory.md R48). -/
def outOfRange (s : State) (b : BufferIndex) (pos len : Nat) : Bool := decide (s.cfg.nbits b < pos + len)

/-- A span of bytes does not lie in the buffer: not `off + cnt <= NBYTES(b)` (20_memory.md R48; 45_crc.md R146). -/
def bytesOutOfRange (s : State) (b : BufferIndex) (off cnt : Nat) : Bool := decide (s.cfg.nbytesOf b < off + cnt)

/-- The first check that fails, in the order listed (30_encoding.md R71, 60_exceptions.md R177). -/
def firstFault : List (Bool × Cause) → Option Cause
  | [] => none
  | (fails, c) :: rest => if fails then some c else firstFault rest

/-- The checks of a command with one buffer operand and no span: `PUSH_BIT` (R48, R121). -/
def bufferChecks (s : State) (b : BufferIndex) : List (Bool × Cause) := [(badBuffer s b, .badBuffer)]

/-- The checks of a command on a span of any length (R48, R90, R91, R120). -/
def spanChecks (s : State) (b : BufferIndex) (pos len : Nat) : List (Bool × Cause) :=
  [(badBuffer s b, .badBuffer), (outOfRange s b pos len, .outOfRange)]

/-- The checks of a command on a span whose operand `size` lies in `1 .. maxLen` (R105, R110, R133). -/
def sizedSpanChecks (s : State) (b : BufferIndex) (pos len maxLen size : Nat) : List (Bool × Cause) :=
  [(badBuffer s b, .badBuffer), (badLength maxLen size, .badLength), (outOfRange s b pos len, .outOfRange)]

/-- The checks of `COPY_BITS`: the two indices are one condition and the two spans are one condition (R111, R177). -/
def copyChecks (s : State) (dst : BufferIndex) (dstPos : Nat) (src : BufferIndex) (srcPos len : Nat) :
    List (Bool × Cause) :=
  [(badBuffer s dst || badBuffer s src, .badBuffer),
   (outOfRange s dst dstPos len || outOfRange s src srcPos len, .outOfRange)]

/-- The checks of a CRC command (R148 to R151). -/
def crcChecks (s : State) (b : BufferIndex) (off cnt : Nat) : List (Bool × Cause) :=
  [(badBuffer s b, .badBuffer), (bytesOutOfRange s b off cnt, .outOfRange)]

end Sys2Proof.Machine
end

