-- ==== Sys2Proof/Machine/Ops.lean ====
section
/-! DEFINITION. The operations every command is written with: the cells, the primitives `Bit`, `SetBit`, `MemRead`,
`MemWrite` of 20_memory.md, the end of a command (a result, a fault, HALTED), and reset. -/

namespace Sys2Proof.Machine

/-! ## Cells -/

/-- The byte at an address: the listed one, else `unlistedByte`. -/
def Memory.read : Memory → Nat → Byte
  | [], _ => unlistedByte
  | (a', v') :: rest, a => if a' = a then v' else Memory.read rest a

/-- No cell at the address. -/
def Memory.erase (m : Memory) (a : Nat) : Memory := m.filter fun c => decide (c.1 ≠ a)

/-- One more cell, before the first whose address is higher. -/
def Memory.insert : Memory → Nat → Byte → Memory
  | [], a, v => [(a, v)]
  | (a', v') :: rest, a, v => if a < a' then (a, v) :: (a', v') :: rest else (a', v') :: Memory.insert rest a v

/-- Write a byte, keeping the canonical form: addresses strictly rising, no cell that holds `unlistedByte`. -/
def Memory.write (m : Memory) (a : Nat) (v : Byte) : Memory :=
  if v = unlistedByte then Memory.erase m a else Memory.insert (Memory.erase m a) a v

/-- The canonical form holds. -/
def Memory.wf : Memory → Bool
  | [] => true
  | (a, v) :: rest => decide (v ≠ unlistedByte) && rest.all (fun c => decide (a < c.1)) && Memory.wf rest

/-- The address of `BUF[b][k]`; the buffer index stands in the low four bits, so distinct buffers never share a cell
(10_state.md R31; log 10). -/
def cellAddr (b : BufferIndex) (k : Nat) : Nat := 16 * k + b.toNat

/-- The address is a byte of a buffer that exists (20_memory.md R40). -/
def cellExists (c : Config) (a : Nat) : Bool := decide (a / 16 < c.nbytesOf (BitVec.ofNat 4 a))

/-- `BUF[b][k]` (10_state.md R21). -/
def readByte (m : Memory) (b : BufferIndex) (k : Nat) : Byte := Memory.read m (cellAddr b k)

/-- `BUF[b][k] <- v`. -/
def writeByte (m : Memory) (b : BufferIndex) (k : Nat) (v : Byte) : Memory := Memory.write m (cellAddr b k) v

/-! ## Bits and fields (20_memory.md R41 to R45) -/

/-- `Bit(b, p)` (R42): bit `7 - (p mod 8)` of byte `p / 8`. -/
def bitAt (m : Memory) (b : BufferIndex) (p : Nat) : Bool := (readByte m b (p / 8)).getLsbD (7 - p % 8)

/-- The mask of R43: one bit set, the one position `p` names. -/
def bitMask (p : Nat) : Byte := 1#8 <<< (7 - p % 8)

/-- `SetBit(b, p, v)` (R43). -/
def setBitAt (m : Memory) (b : BufferIndex) (p : Nat) (v : Bool) : Memory :=
  let old := readByte m b (p / 8)
  writeByte m b (p / 8) (if v then old ||| bitMask p else old &&& (0xFF#8 ^^^ bitMask p))

/-- `MemRead(b, p, n)` (R44) as a number: the first position is the most significant. -/
def memRead (m : Memory) (b : BufferIndex) (p : Nat) : Nat → Nat
  | 0 => 0
  | n + 1 => (bitAt m b p).toNat * 2 ^ n + memRead m b (p + 1) n

/-- `MemWrite(b, p, n, v)` (R45): bit `n - 1` of `v` goes to position `p`, and so on in ascending position. -/
def memWrite (m : Memory) (b : BufferIndex) (p : Nat) : Nat → Nat → Memory
  | 0, _ => m
  | n + 1, v => memWrite (setBitAt m b p (v.testBit n)) b (p + 1) n v

/-- Write `f k` to byte `k` of a buffer, for `k = 0 .. n-1` in that order. -/
def fillBytes (m : Memory) (b : BufferIndex) (f : Nat → Byte) : Nat → Memory
  | 0 => m
  | n + 1 => writeByte (fillBytes m b f n) b n (f n)

/-- The bytes `BUF[b][off] .. BUF[b][off+cnt-1]` in ascending order (45_crc.md R146). -/
def bytesAt (m : Memory) (b : BufferIndex) (off cnt : Nat) : List Byte :=
  (List.range cnt).map fun i => readByte m b (off + i)

/-! ## The end of a command -/

/-- The output of the step: one response word (30_encoding.md R60, R64). -/
def respond (status : BitVec 8) (result : ResultWord) (s : State) : State :=
  { s with rsp := some (responseWord status result) }

/-- `return v`: status OK and `RESULT = zext_64(v)` (R64). -/
def answerValue (v : ResultWord) (s : State) : State := respond statusOk v s

/-- `return` of a Boolean result: 0 or 1 (10_state.md R26). -/
def answerBool (v : Bool) (s : State) : State := answerValue (BitVec.ofNat 64 v.toNat) s

/-- The end of a writing command: the buffers are `m`, and `return` with `RESULT = 0` (R64). -/
def answerWrite (m : Memory) (s : State) : State := respond statusOk 0 { s with mem := m }

/-- TAKING A FAULT (60_exceptions.md R171): no byte is written, `FSR <- 0x8000 or (c << 8) or CW[127:120]`, the
response is `STATUS = c`, `RESULT = 0`; nothing else changes. There is no saved counter, no vector and no mode. -/
def takeFault (c : Cause) (op : Byte) (s : State) : State :=
  respond (statusOfCause c) 0 { s with fsr := faultWord c op }

/-- A command presented to a halted engine (R173): HALTED with `RESULT = zext_64(FSR)`, nothing changes. -/
def answerHalted (s : State) : State := respond statusHalted (s.fsr.setWidth 64) s

/-- Every command, in the order of 30_encoding.md R71: the halted check (step 1), the checks of the operands in their
order (steps 4 to 7), the effect (step 8). Steps 2 and 3 are the decoder's (log 11). -/
def issue (o : Opcode) (checks : List (Bool × Cause)) (effect : State → State) (s : State) :
    Host.Outcome State Fault Refusal :=
  if halted s then .next (answerHalted s)
  else
    match firstFault checks with
    | some c => .next (takeFault c (opcodeByte o) s)
    | none => .next (effect s)

/-- A word that decodes to no command (R71 steps 1 to 3): HALTED, else the fault ILLEGAL_COMMAND with `FSR.OP` the
opcode byte whatever it is (60_exceptions.md R166). -/
def illegalCommand (op : Byte) (s : State) : State :=
  if halted s then answerHalted s else takeFault .illegalCommand op s

/-! ## Reset: the only way out of the halted state (60_exceptions.md R174) -/

/-- The buffers right after reset: `BUF[b][k] = INIT_BUF(b, k)` for every byte that exists; a cell of `init` at an
address that is no buffer's byte is dropped, and the first of two cells at one address counts (R190; log 5). -/
def loadInit (c : Config) (init : List Host.Cell) : Memory :=
  init.foldr (fun cell m => if cellExists c cell.1 then Memory.write m cell.1 cell.2 else m) []

/-- Reset (70_reset_and_hazards.md R190): `FSR <- 0x0000`, every buffer byte from `INIT_BUF`; the parameters stay. It
is no command and has no response. -/
def resetEvent (init : List Host.Cell) (s : State) : State :=
  { s with mem := loadInit s.cfg init, fsr := 0x0000, rsp := none }

/-- The engine with the parameters `c` right after a reset with the contents `init`: `State.reset` for any
configuration and any `INIT_BUF` (R29). -/
def powerOn (c : Config) (init : List Host.Cell) : State := resetEvent init { State.reset with cfg := c }

/-- The host's next move has been made; `rest` are the moves after it. -/
def takeMove (rest : List HostMove) (s : State) : State := { s with pending := rest }

end Sys2Proof.Machine
end

