-- ==== Sys2Proof/Machine/BitAccess.lean ====
section
/-! DEFINITION. Single-bit access: `GET_BIT`, `SET_BIT` (40_bit_access.md). -/

namespace Sys2Proof.Machine

/-- `GET_BIT b, pos` (R90): `return Bit(b, pos)`. -/
def execGetBit (b : BufferIndex) (pos : Nat) (s : State) : Host.Outcome State Fault Refusal :=
  issue .getBit (spanChecks s b pos 1) (fun s => answerBool (bitAt s.mem b pos) s) s

/-- `SET_BIT b, pos, bit` (R91): `SetBit(b, pos, bit)`. -/
def execSetBit (b : BufferIndex) (pos : Nat) (bit : Bool) (s : State) : Host.Outcome State Fault Refusal :=
  issue .setBit (spanChecks s b pos 1) (fun s => answerWrite (setBitAt s.mem b pos bit) s) s

end Sys2Proof.Machine
end

