-- ==== Sys2Proof/Machine/Crc.lean ====
section
/-! DEFINITION. CRC generator and checker: `CRC8`, `CRC16`, `CRC8_CHK`, `CRC16_CHK` (45_crc.md). The algorithm is that
of R147, which the spec itself marks as general knowledge (UNVERIFIED: log 12). -/

namespace Sys2Proof.Machine

/-- One bit of R147: shift left, and exclusive-or the polynomial where the top bit and the input bit differ. -/
def crcBit {w : Nat} (poly crc : BitVec w) (inb : Bool) : BitVec w :=
  if (crc.getLsbD (w - 1)).xor inb then (crc <<< 1) ^^^ poly else crc <<< 1

/-- One byte of R147: its bits, most significant first. -/
def crcByte {w : Nat} (poly crc : BitVec w) (d : Byte) : BitVec w :=
  (List.range 8).foldl (fun c j => crcBit poly c (d.getLsbD (7 - j))) crc

/-- `rev_W` where the flag is set (00_scope.md section 5.1; R147 reflect-in, reflect-out). -/
def reflect {w : Nat} (on : Bool) (v : BitVec w) : BitVec w := if on then v.reverse else v

/-- `CRC_W(data, poly, init, refin, refout, xorout)` (R145, R147): reflect-out before the final XOR. -/
def crcValue {w : Nat} (data : List Byte) (poly init : BitVec w) (refin refout : Bool) (xorout : BitVec w) : BitVec w :=
  reflect refout (data.foldl (fun c d => crcByte poly c (reflect refin d)) init) ^^^ xorout

/-- A CRC command with the result computed from the data bytes by `result` (R146, R148 to R151). -/
def crcCommand (o : Opcode) (b : BufferIndex) (off cnt : Nat) (result : List Byte → ResultWord) (s : State) :
    Host.Outcome State Fault Refusal :=
  issue o (crcChecks s b off cnt) (fun s => answerValue (result (bytesAt s.mem b off cnt)) s) s

/-- `CRC8 b, off, cnt, poly, init, refin, refout, xorout` (R148). -/
def execCrc8 (b : BufferIndex) (off cnt : Nat) (poly init : BitVec 8) (refin refout : Bool) (xorout : BitVec 8)
    (s : State) : Host.Outcome State Fault Refusal :=
  crcCommand .crc8 b off cnt (fun data => (crcValue data poly init refin refout xorout).setWidth 64) s

/-- `CRC16 b, off, cnt, poly, init, refin, refout, xorout` (R149). -/
def execCrc16 (b : BufferIndex) (off cnt : Nat) (poly init : BitVec 16) (refin refout : Bool) (xorout : BitVec 16)
    (s : State) : Host.Outcome State Fault Refusal :=
  crcCommand .crc16 b off cnt (fun data => (crcValue data poly init refin refout xorout).setWidth 64) s

/-- `CRC8_CHK` (R150): 1 where the computed value equals `expect`, else 0; a mismatch is a result, not a fault. -/
def execCrc8Chk (b : BufferIndex) (off cnt : Nat) (poly init : BitVec 8) (refin refout : Bool)
    (xorout expect : BitVec 8) (s : State) : Host.Outcome State Fault Refusal :=
  crcCommand .crc8Chk b off cnt
    (fun data => if crcValue data poly init refin refout xorout = expect then 1 else 0) s

/-- `CRC16_CHK` (R151): the 16-bit counterpart of `CRC8_CHK`. -/
def execCrc16Chk (b : BufferIndex) (off cnt : Nat) (poly init : BitVec 16) (refin refout : Bool)
    (xorout expect : BitVec 16) (s : State) : Host.Outcome State Fault Refusal :=
  crcCommand .crc16Chk b off cnt
    (fun data => if crcValue data poly init refin refout xorout = expect then 1 else 0) s

end Sys2Proof.Machine
end

