-- ==== Sys2Proof/Machine/FieldRead.lean ====
section
/-! DEFINITION. Field extraction: `GET_BITS8`, `GET_BITS16`, `GET_BITS32`, `GET_BITS64` (41_field_read.md). -/

namespace Sys2Proof.Machine

/-- The common rule (R100, R105): the field of `len` bits at `pos`, zero-extended; `1 <= len <= maxLen`. -/
def readField (o : Opcode) (maxLen : Nat) (b : BufferIndex) (pos len : Nat) (s : State) :
    Host.Outcome State Fault Refusal :=
  issue o (sizedSpanChecks s b pos len maxLen len)
    (fun s => answerValue (BitVec.ofNat 64 (memRead s.mem b pos len)) s) s

/-- `GET_BITS8 b, pos, len` (R101). -/
def execGetBits8 (b : BufferIndex) (pos len : Nat) (s : State) : Host.Outcome State Fault Refusal :=
  readField .getBits8 8 b pos len s

/-- `GET_BITS16 b, pos, len` (R102). -/
def execGetBits16 (b : BufferIndex) (pos len : Nat) (s : State) : Host.Outcome State Fault Refusal :=
  readField .getBits16 16 b pos len s

/-- `GET_BITS32 b, pos, len` (R103). -/
def execGetBits32 (b : BufferIndex) (pos len : Nat) (s : State) : Host.Outcome State Fault Refusal :=
  readField .getBits32 32 b pos len s

/-- `GET_BITS64 b, pos, len` (R104). -/
def execGetBits64 (b : BufferIndex) (pos len : Nat) (s : State) : Host.Outcome State Fault Refusal :=
  readField .getBits64 64 b pos len s

end Sys2Proof.Machine
end

