-- ==== Sys2Proof/Machine/FieldWriteCopy.lean ====
section
/-! DEFINITION. Field write and bit copy: `SET_BITS`, `COPY_BITS` (42_field_write_copy.md). -/

namespace Sys2Proof.Machine

/-- `SET_BITS b, pos, val, len` (R110): `MemWrite(b, pos, len, val)`; the bits of `val` above `len` are ignored. -/
def execSetBits (b : BufferIndex) (pos : Nat) (val : Byte) (len : Nat) (s : State) :
    Host.Outcome State Fault Refusal :=
  issue .setBits (sizedSpanChecks s b pos len 8 len)
    (fun s => answerWrite (memWrite s.mem b pos len val.toNat) s) s

/-- The loop of R111, `n` bits in ascending offset: each bit is read from the memory as the bits before it left it. -/
def copySpan (m : Memory) (dst : BufferIndex) (dp : Nat) (src : BufferIndex) (sp : Nat) : Nat → Memory
  | 0 => m
  | n + 1 => copySpan (setBitAt m dst dp (bitAt m src sp)) dst (dp + 1) src (sp + 1) n

/-- `COPY_BITS dst, dst_pos, src, src_pos, len` (R111). -/
def execCopyBits (dst : BufferIndex) (dstPos : Nat) (src : BufferIndex) (srcPos len : Nat) (s : State) :
    Host.Outcome State Fault Refusal :=
  issue .copyBits (copyChecks s dst dstPos src srcPos len)
    (fun s => answerWrite (copySpan s.mem dst dstPos src srcPos len) s) s

end Sys2Proof.Machine
end

