-- ==== Sys2Proof/Machine/Parity.lean ====
section
/-! DEFINITION. Parity generator and checker: `TEST_PARITY32`, `GEN_PARITY32`, `CHECK_PARITY` (44_parity.md). -/

namespace Sys2Proof.Machine

/-- The number of one bits among the low `w` bits of a number (`popcount`, 00_scope.md section 5.1). -/
def popcount (v : Nat) : Nat → Nat
  | 0 => 0
  | w + 1 => popcount v w + (v.testBit w).toNat

/-- `PASS(EVEN) = EVEN_PASS_PARITY` (00_scope.md R8). -/
def passEven (c : Config) : Nat := c.evenPassParity.toNat

/-- `PASS(ODD) = 1 - EVEN_PASS_PARITY` (00_scope.md R8). -/
def passOdd (c : Config) : Nat := 1 - passEven c

/-- `Passes(g, w, kind)` (R130): the residue of the ones of the group, or the marker bit, which is its last bit. -/
def passes (c : Config) (g w : Nat) : ParityKind → Bool
  | .even => decide (popcount g w % 2 = passEven c)
  | .odd => decide (popcount g w % 2 = passOdd c)
  | .always0 => g.testBit 0 == false
  | .always1 => g.testBit 0 == true

/-- `TEST_PARITY32 value, kind` (R131): EVEN and ODD only, else BAD_KIND. -/
def execTestParity32 (value : BitVec 32) (kind : ParityKind) (s : State) : Host.Outcome State Fault Refusal :=
  issue .testParity32 [(badTestKind kind, .badKind)] (fun s => answerBool (passes s.cfg value.toNat 32 kind) s) s

/-- The parity bit of R132 for the data bits `v`. -/
def parityBit (c : Config) (v : Nat) : ParityKind → Nat
  | .even => (popcount v 32 % 2) ^^^ passEven c
  | .odd => (popcount v 32 % 2) ^^^ passOdd c
  | .always0 => 0
  | .always1 => 1

/-- `GEN_PARITY32 value, kind` (R132): all four kinds; nothing is stored. -/
def execGenParity32 (value : BitVec 32) (kind : ParityKind) (s : State) : Host.Outcome State Fault Refusal :=
  issue .genParity32 [] (fun s => answerValue (BitVec.ofNat 64 (parityBit s.cfg value.toNat kind)) s) s

/-- Every one of the first `nblk` blocks of `bsz` bits from `pos` passes (R133). -/
def allBlocksPass (c : Config) (m : Memory) (b : BufferIndex) (pos bsz : Nat) (kind : ParityKind) (nblk : Nat) : Bool :=
  (List.range nblk).all fun i => passes c (memRead m b (pos + i * bsz) bsz) bsz kind

/-- `CHECK_PARITY b, pos, len, kind, bsz` (R133): the `len / bsz` whole blocks; the rest of the span is not tested. -/
def execCheckParity (b : BufferIndex) (pos len : Nat) (kind : ParityKind) (bsz : Nat) (s : State) :
    Host.Outcome State Fault Refusal :=
  issue .checkParity (sizedSpanChecks s b pos len 32 bsz)
    (fun s => answerBool (allBlocksPass s.cfg s.mem b pos bsz kind (len / bsz)) s) s

end Sys2Proof.Machine
end

