-- ==== Sys2Proof/Machine/ReversePush.lean ====
section
/-! DEFINITION. Bit reversal and bit shift-in: `REVERSE_BITS`, `PUSH_BIT` (43_reverse_push.md). -/

namespace Sys2Proof.Machine

/-- Exchange the bits at two positions (the body of the loop of R120). -/
def swapBits (m : Memory) (b : BufferIndex) (i j : Nat) : Memory :=
  setBitAt (setBitAt m b i (bitAt m b j)) b j (bitAt m b i)

/-- Swap from the ends (R120): the two ends, then the span inside them; a span of 0 or 1 bits stays. -/
def reverseSpan (m : Memory) (b : BufferIndex) (p : Nat) : Nat → Memory
  | 0 => m
  | 1 => m
  | n + 2 => reverseSpan (swapBits m b p (p + n + 1)) b (p + 1) n

/-- `REVERSE_BITS b, pos, len` (R120). -/
def execReverseBits (b : BufferIndex) (pos len : Nat) (s : State) : Host.Outcome State Fault Refusal :=
  issue .reverseBits (spanChecks s b pos len) (fun s => answerWrite (reverseSpan s.mem b pos len) s) s

/-- Byte `k` of an `n`-byte buffer after the shift of R121: shifted left by one, with the high bit of the next byte, or
the operand bit in the last byte, entering at the low end. -/
def pushedByte (old : Memory) (b : BufferIndex) (n : Nat) (bit : Bool) (k : Nat) : Byte :=
  (readByte old b k <<< 1) |||
    (if k + 1 < n then readByte old b (k + 1) >>> 7 else BitVec.ofNat 8 bit.toNat)

/-- `PUSH_BIT b, bit` (R121): every byte of the buffer, computed from the buffer before the command. -/
def execPushBit (b : BufferIndex) (bit : Bool) (s : State) : Host.Outcome State Fault Refusal :=
  issue .pushBit (bufferChecks s b)
    (fun s => answerWrite (fillBytes s.mem b (pushedByte s.mem b (s.cfg.nbytesOf b) bit) (s.cfg.nbytesOf b)) s) s

end Sys2Proof.Machine
end

