-- ==== Sys2Proof/Machine/Dispatch.lean ====
section
/-! DEFINITION. The meaning of every command (30_encoding.md R66), one arm for each constructor. -/

namespace Sys2Proof.Machine

def exec (i : Instr) (s : State) : Host.Outcome State Fault Refusal :=
  match i with
  | .getBit b pos => Sys2Proof.Machine.execGetBit b pos s
  | .setBit b pos bit => Sys2Proof.Machine.execSetBit b pos bit s
  | .getBits8 b pos len => Sys2Proof.Machine.execGetBits8 b pos len s
  | .getBits16 b pos len => Sys2Proof.Machine.execGetBits16 b pos len s
  | .getBits32 b pos len => Sys2Proof.Machine.execGetBits32 b pos len s
  | .getBits64 b pos len => Sys2Proof.Machine.execGetBits64 b pos len s
  | .setBits b pos val len => Sys2Proof.Machine.execSetBits b pos val len s
  | .copyBits dst dstPos src srcPos len => Sys2Proof.Machine.execCopyBits dst dstPos src srcPos len s
  | .reverseBits b pos len => Sys2Proof.Machine.execReverseBits b pos len s
  | .pushBit b bit => Sys2Proof.Machine.execPushBit b bit s
  | .testParity32 value kind => Sys2Proof.Machine.execTestParity32 value kind s
  | .genParity32 value kind => Sys2Proof.Machine.execGenParity32 value kind s
  | .checkParity b pos len kind bsz => Sys2Proof.Machine.execCheckParity b pos len kind bsz s
  | .crc8 b off cnt poly init refin refout xorout => Sys2Proof.Machine.execCrc8 b off cnt poly init refin refout xorout s
  | .crc16 b off cnt poly init refin refout xorout => Sys2Proof.Machine.execCrc16 b off cnt poly init refin refout xorout s
  | .crc8Chk b off cnt poly init refin refout xorout expect => Sys2Proof.Machine.execCrc8Chk b off cnt poly init refin refout xorout expect s
  | .crc16Chk b off cnt poly init refin refout xorout expect => Sys2Proof.Machine.execCrc16Chk b off cnt poly init refin refout xorout expect s

end Sys2Proof.Machine
end

