-- ==== Sys2Proof/Machine/Step.lean ====
section
/-! DEFINITION. One step (30_encoding.md R60; 00_scope.md R11): the host makes its next move, and the engine answers.
A command word goes through 30_encoding.md R71; a reset is 70_reset_and_hazards.md R190. Between moves the engine does
nothing, so with no move there is no step (log 8). -/

namespace Sys2Proof.Machine

/-- One command word: steps 2 and 3 of R71 by the decoder, the others by the meaning of the command. -/
def runWord (cw : CommandWord) (s : State) : Host.Outcome State Fault Refusal :=
  match decode cw with
  | .ok i => exec i s
  | .error _ => .next (illegalCommand (opcodeOf cw) s)

/-- One step: the host's next move and the engine's answer to it. -/
def step (s : State) : Host.Outcome State Fault Refusal :=
  match s.pending with
  | [] => .fault .noHostMove
  | .reset init :: rest => .next (resetEvent init (takeMove rest s))
  | .command cw :: rest => runWord cw (takeMove rest s)

/-- `s` where the host's next move presents the word whose bits are `w` as spec/opcode_table.json numbers them; the
moves it would make afterwards stay (log 6). -/
def State.withFetchWord (s : State) (nbits w : Nat) : State :=
  { s with pending := .command (tableWord nbits w) :: s.pending }

end Sys2Proof.Machine
end

