-- ==== Sys2Proof/Machine/Pseudo.lean ====
section
/-! DEFINITION. The pseudo-instructions `STB`, `LDB`, `SETF` (30_encoding.md R75, 42_field_write_copy.md R112): each
stands for the listed commands issued in order, none is a command word of its own. And the written form of a command
(30_encoding.md R74). No step reads anything of this file: it is the host's side of the interface. -/

namespace Sys2Proof.Machine

/-- The pseudo-instructions of R75. -/
inductive Pseudo where
  /-- `STB b, k, byte` (store byte). -/
  | stb (b : BufferIndex) (k : Nat) (byte : Byte)
  /-- `LDB b, k` (load byte). -/
  | ldb (b : BufferIndex) (k : Nat)
  /-- `SETF b, pos, value, len` (set a field of 1 to 64 bits). -/
  | setf (b : BufferIndex) (pos : Nat) (value : BitVec 64) (len : Nat)
deriving DecidableEq, Repr

/-- The loop of R112 from the offset `o`: the chunk of `w = min(8, len - o)` bits `value[len-1-o : len-o-w]` goes to
position `pos + o`. The first argument bounds the number of chunks. -/
def setfFrom (b : BufferIndex) (pos : Nat) (value : BitVec 64) (len : Nat) : Nat → Nat → List Instr
  | 0, _ => []
  | chunks + 1, o =>
    if o < len then
      let w := min 8 (len - o)
      .setBits b (pos + o) (BitVec.ofNat 8 (value.toNat / 2 ^ (len - o - w) % 2 ^ w)) w
        :: setfFrom b pos value len chunks (o + w)
    else []

/-- The expansion of a pseudo-instruction (R75, R112); `SETF` has `ceil(len / 8)` chunks. -/
def expandPseudo : Pseudo → List Instr
  | .stb b k byte => [.setBits b (8 * k) byte 8]
  | .ldb b k => [.getBits8 b (8 * k) 8]
  | .setf b pos value len => setfFrom b pos value len ((len + 7) / 8) 0

/-- Commands one after the other, each on the state the one before it left (20_memory.md R53). -/
def execAll : List Instr → State → Host.Outcome State Fault Refusal
  | [], s => .next s
  | i :: rest, s =>
    match exec i s with
    | .next t => execAll rest t
    | .fault r => .fault r
    | .refused r => .refused r

/-- The moves of a host that issues the commands in order (R60). -/
def issueMoves (l : List Instr) : List HostMove := l.map fun i => .command (encode i)

/-! ## The written form (R74) -/

/-- The mnemonics of R66. -/
def mnemonic : Opcode → String
  | .getBit => "GET_BIT"
  | .setBit => "SET_BIT"
  | .getBits8 => "GET_BITS8"
  | .getBits16 => "GET_BITS16"
  | .getBits32 => "GET_BITS32"
  | .getBits64 => "GET_BITS64"
  | .setBits => "SET_BITS"
  | .copyBits => "COPY_BITS"
  | .reverseBits => "REVERSE_BITS"
  | .pushBit => "PUSH_BIT"
  | .testParity32 => "TEST_PARITY32"
  | .genParity32 => "GEN_PARITY32"
  | .checkParity => "CHECK_PARITY"
  | .crc8 => "CRC8"
  | .crc16 => "CRC16"
  | .crc8Chk => "CRC8_CHK"
  | .crc16Chk => "CRC16_CHK"

/-- The written parity kinds of R74. -/
def kindName : ParityKind → String
  | .even => "EVEN"
  | .odd => "ODD"
  | .always0 => "ALWAYS0"
  | .always1 => "ALWAYS1"

/-- A number in decimal (R74). -/
def decimal (n : Nat) : String := toString n

/-- The written operands in the order of R74. -/
def writtenOperands : Instr → List String
  | .getBit b pos => [decimal b.toNat, decimal pos]
  | .setBit b pos bit => [decimal b.toNat, decimal pos, decimal bit.toNat]
  | .getBits8 b pos len => [decimal b.toNat, decimal pos, decimal len]
  | .getBits16 b pos len => [decimal b.toNat, decimal pos, decimal len]
  | .getBits32 b pos len => [decimal b.toNat, decimal pos, decimal len]
  | .getBits64 b pos len => [decimal b.toNat, decimal pos, decimal len]
  | .setBits b pos val len => [decimal b.toNat, decimal pos, decimal val.toNat, decimal len]
  | .copyBits dst dstPos src srcPos len =>
    [decimal dst.toNat, decimal dstPos, decimal src.toNat, decimal srcPos, decimal len]
  | .reverseBits b pos len => [decimal b.toNat, decimal pos, decimal len]
  | .pushBit b bit => [decimal b.toNat, decimal bit.toNat]
  | .testParity32 value kind => [decimal value.toNat, kindName kind]
  | .genParity32 value kind => [decimal value.toNat, kindName kind]
  | .checkParity b pos len kind bsz => [decimal b.toNat, decimal pos, decimal len, kindName kind, decimal bsz]
  | .crc8 b off cnt poly init refin refout xorout =>
    [decimal b.toNat, decimal off, decimal cnt, decimal poly.toNat, decimal init.toNat, decimal refin.toNat,
     decimal refout.toNat, decimal xorout.toNat]
  | .crc16 b off cnt poly init refin refout xorout =>
    [decimal b.toNat, decimal off, decimal cnt, decimal poly.toNat, decimal init.toNat, decimal refin.toNat,
     decimal refout.toNat, decimal xorout.toNat]
  | .crc8Chk b off cnt poly init refin refout xorout expect =>
    [decimal b.toNat, decimal off, decimal cnt, decimal poly.toNat, decimal init.toNat, decimal refin.toNat,
     decimal refout.toNat, decimal xorout.toNat, decimal expect.toNat]
  | .crc16Chk b off cnt poly init refin refout xorout expect =>
    [decimal b.toNat, decimal off, decimal cnt, decimal poly.toNat, decimal init.toNat, decimal refin.toNat,
     decimal refout.toNat, decimal xorout.toNat, decimal expect.toNat]

/-- The written form of a command: its mnemonic, then its operands, comma-separated (R74). -/
def writtenForm (i : Instr) : String := mnemonic i.opcode ++ " " ++ String.intercalate ", " (writtenOperands i)

end Sys2Proof.Machine
end

