-- ==== Sys2Proof/Safety.lean ====
section
/-! DEFINITION. What a good state is, and the terms in which claims speak of operands, results and frames. They are
written from the rules' own words and formulas, beside the model's operations, so that a claim compares the two. -/

namespace Sys2Proof.Safety

open Sys2Proof.Machine

/-! ## Good states -/

/-- The engine accepts commands. A halted state is never the end of a successful run (60_exceptions.md R174). -/
def Running (s : State) : Prop := halted s = false

/-- Every listed cell is a byte of a buffer that exists (20_memory.md R40). -/
def cellsExist (c : Config) (m : Memory) : Prop := ∀ cell ∈ m, cellExists c cell.1 = true

/-- `FSR` is zero, or it is what some fault entry wrote (10_state.md R25). -/
def fsrLegal (fsr : BitVec 16) : Prop := fsr = 0 ∨ ∃ c op, fsr = faultWord c op

/-- The invariant: legal parameters, canonical memory that holds only bytes that exist, a legal `FSR`. -/
structure Invariant (s : State) : Prop where
  cfg : s.cfg.wf = true
  mem : Memory.wf s.mem = true
  cells : cellsExist s.cfg s.mem
  fsr : fsrLegal s.fsr

/-! ## Operands -/

/-- Buffer `b` exists and the span of `len` bits from `pos` lies in it (20_memory.md R48). -/
def SpanIn (s : State) (b : BufferIndex) (pos len : Nat) : Prop :=
  b.toNat < s.cfg.nbuf ∧ pos + len ≤ s.cfg.nbits b

/-- Buffer `b` exists and the span of `cnt` bytes from `off` lies in it (20_memory.md R48). -/
def BytesIn (s : State) (b : BufferIndex) (off cnt : Nat) : Prop :=
  b.toNat < s.cfg.nbuf ∧ off + cnt ≤ s.cfg.nbytesOf b

/-- The buffer indices a command names (30_encoding.md R67). -/
def buffersOf : Instr → List BufferIndex
  | .getBit b _ => [b]
  | .setBit b _ _ => [b]
  | .getBits8 b _ _ => [b]
  | .getBits16 b _ _ => [b]
  | .getBits32 b _ _ => [b]
  | .getBits64 b _ _ => [b]
  | .setBits b _ _ _ => [b]
  | .copyBits dst _ src _ _ => [dst, src]
  | .reverseBits b _ _ => [b]
  | .pushBit b _ => [b]
  | .testParity32 _ _ => []
  | .genParity32 _ _ => []
  | .checkParity b _ _ _ _ => [b]
  | .crc8 b _ _ _ _ _ _ _ => [b]
  | .crc16 b _ _ _ _ _ _ _ => [b]
  | .crc8Chk b _ _ _ _ _ _ _ _ => [b]
  | .crc16Chk b _ _ _ _ _ _ _ _ => [b]

/-- The length operand is illegal (60_exceptions.md R169): zero, or above 8, 16, 32, 64, 8 and 32 respectively. -/
def LengthIllegal : Instr → Prop
  | .getBits8 _ _ len => len = 0 ∨ 8 < len
  | .getBits16 _ _ len => len = 0 ∨ 16 < len
  | .getBits32 _ _ len => len = 0 ∨ 32 < len
  | .getBits64 _ _ len => len = 0 ∨ 64 < len
  | .setBits _ _ _ len => len = 0 ∨ 8 < len
  | .checkParity _ _ _ _ bsz => bsz = 0 ∨ 32 < bsz
  | _ => False

/-- The range condition of 20_memory.md R48 for the command is false. -/
def SpanOutside (s : State) : Instr → Prop
  | .getBit b pos => ¬ pos + 1 ≤ s.cfg.nbits b
  | .setBit b pos _ => ¬ pos + 1 ≤ s.cfg.nbits b
  | .getBits8 b pos len => ¬ pos + len ≤ s.cfg.nbits b
  | .getBits16 b pos len => ¬ pos + len ≤ s.cfg.nbits b
  | .getBits32 b pos len => ¬ pos + len ≤ s.cfg.nbits b
  | .getBits64 b pos len => ¬ pos + len ≤ s.cfg.nbits b
  | .setBits b pos _ len => ¬ pos + len ≤ s.cfg.nbits b
  | .copyBits dst dstPos src srcPos len =>
    ¬ (dstPos + len ≤ s.cfg.nbits dst ∧ srcPos + len ≤ s.cfg.nbits src)
  | .reverseBits b pos len => ¬ pos + len ≤ s.cfg.nbits b
  | .checkParity b pos len _ _ => ¬ pos + len ≤ s.cfg.nbits b
  | .crc8 b off cnt _ _ _ _ _ => ¬ off + cnt ≤ s.cfg.nbytesOf b
  | .crc16 b off cnt _ _ _ _ _ => ¬ off + cnt ≤ s.cfg.nbytesOf b
  | .crc8Chk b off cnt _ _ _ _ _ _ => ¬ off + cnt ≤ s.cfg.nbytesOf b
  | .crc16Chk b off cnt _ _ _ _ _ _ => ¬ off + cnt ≤ s.cfg.nbytesOf b
  | _ => False

/-- The parity kind is refused: `TEST_PARITY32` with ALWAYS0 or ALWAYS1 (60_exceptions.md R168). -/
def KindRefused : Instr → Prop
  | .testParity32 _ kind => kind = .always0 ∨ kind = .always1
  | _ => False

/-- The buffer a command writes, for the five writing commands (10_state.md R22); none for the others. -/
def writtenBuffer : Instr → Option BufferIndex
  | .setBit b _ _ => some b
  | .setBits b _ _ _ => some b
  | .copyBits dst _ _ _ _ => some dst
  | .reverseBits b _ _ => some b
  | .pushBit b _ => some b
  | _ => none

/-! ## Results -/

/-- The state after a command that returns the value `v` and writes nothing: `STATUS` OK, `RESULT = v`. -/
def returns (v : ResultWord) (s : State) : State := { s with rsp := some (0x00#8 ++ v) }

/-- The state after the fault with cause code `code` of a command with the opcode byte `op` (60_exceptions.md R171). -/
def faulted (code : BitVec 4) (op : Byte) (s : State) : State :=
  { s with
    fsr := 0x8000#16 ||| (code.setWidth 16 <<< 8) ||| op.setWidth 16
    rsp := some (code.setWidth 8 ++ 0#64) }

/-- The command raises the fault with cause `c`. -/
def Raises (c : Cause) (i : Instr) (s : State) : Prop :=
  exec i s = .next (faulted (causeCode c) (opcodeByte i.opcode) s)

/-- The field of R44 and R100 as the sum they give: `sum of Bit(b, pos+i) * 2^(len-1-i)`. -/
def fieldSum (m : Memory) (b : BufferIndex) (pos len : Nat) : Nat :=
  ∑ i ∈ Finset.range len, (bitAt m b (pos + i)).toNat * 2 ^ (len - 1 - i)

/-- The number of one bits at the positions `pos .. pos+len-1`. -/
def onesInSpan (m : Memory) (b : BufferIndex) (pos len : Nat) : Nat :=
  ((Finset.range len).filter fun i => bitAt m b (pos + i) = true).card

/-- The number of one bits of a 32-bit value (00_scope.md section 5.1, `popcount`). -/
def onesOf (v : BitVec 32) : Nat := ((Finset.range 32).filter fun i => v.getLsbD i = true).card

/-- `PASS(kind)` for the two counting kinds (00_scope.md R8). -/
def passResidue (c : Config) (odd : Bool) : Nat := if odd then 1 - c.evenPassParity.toNat else c.evenPassParity.toNat

/-! ## Frames -/

/-- Everything but the buffers and the response is as before. -/
def SameRegisters (s t : State) : Prop := t.cfg = s.cfg ∧ t.fsr = s.fsr ∧ t.pending = s.pending

/-- Every bit position of every buffer outside `pos .. pos+len-1` of buffer `b` is as before. -/
def BitsOutsideSame (m m' : Memory) (b : BufferIndex) (pos len : Nat) : Prop :=
  ∀ b' p, (b' ≠ b ∨ p < pos ∨ pos + len ≤ p) → bitAt m' b' p = bitAt m b' p

/-- Every byte at an address that holds no position of the span reads as before. -/
def BytesOutsideSame (m m' : Memory) (b : BufferIndex) (pos len : Nat) : Prop :=
  ∀ a, (∀ p, pos ≤ p → p < pos + len → a ≠ cellAddr b (p / 8)) → Memory.read m' a = Memory.read m a

/-- A writing command's frame: no response but OK with `RESULT = 0`, and nothing changed outside the span. -/
def WritesOnly (s t : State) (b : BufferIndex) (pos len : Nat) : Prop :=
  t.rsp = some (0x00#8 ++ 0#64) ∧ SameRegisters s t ∧ BitsOutsideSame s.mem t.mem b pos len ∧
    BytesOutsideSame s.mem t.mem b pos len

/-! ## The CRC of 45_crc.md R147 on numbers -/

/-- One bit of R147: `top <- crc[W-1]; crc <- (crc << 1) mod 2^W; if (top xor inb) = 1 then crc <- crc xor poly`. -/
def crcBitNum (w poly crc : Nat) (inb : Bool) : Nat :=
  let top := crc / 2 ^ (w - 1) % 2
  let shifted := crc * 2 % 2 ^ w
  if (top + inb.toNat) % 2 = 1 then shifted ^^^ poly else shifted

/-- `rev_W(v)` on numbers: `rev_W(v)[i] = v[W-1-i]` (00_scope.md section 5.1). -/
def revNum (w v : Nat) : Nat := ∑ i ∈ Finset.range w, (v.testBit (w - 1 - i)).toNat * 2 ^ i

/-- One byte of R147: bits `d[7], d[6], .., d[0]` of the byte, which is reversed first where `refin` is set. -/
def crcByteNum (w poly : Nat) (refin : Bool) (crc d : Nat) : Nat :=
  let e := if refin then revNum 8 d else d
  [7, 6, 5, 4, 3, 2, 1, 0].foldl (fun c j => crcBitNum w poly c (e.testBit j)) crc

/-- `CRC_W` of R147 on numbers. -/
def crcNum (w : Nat) (data : List Nat) (poly init : Nat) (refin refout : Bool) (xorout : Nat) : Nat :=
  let crc := data.foldl (crcByteNum w poly refin) init
  (if refout then revNum w crc else crc) ^^^ xorout

/-- The data of a CRC command (45_crc.md R146) as numbers. -/
def dataNums (m : Memory) (b : BufferIndex) (off cnt : Nat) : List Nat :=
  (List.range cnt).map fun i => (readByte m b (off + i)).toNat

/-- The textbook register of the last point of R147: the data bit enters at the low end, and the bit shifted out of the
top selects the polynomial; `W` zero bits are appended to the data. -/
def textbookBit {w : Nat} (poly reg : BitVec w) (inb : Bool) : BitVec w :=
  let shifted := (reg <<< 1) ^^^ BitVec.ofNat w inb.toNat
  if reg.getLsbD (w - 1) then shifted ^^^ poly else shifted

/-- The bits of a byte, most significant first. -/
def bitsOfByte (d : Byte) : List Bool := [7, 6, 5, 4, 3, 2, 1, 0].map d.getLsbD

end Sys2Proof.Safety
end

