-- ==== Sys2Proof/Certificates/Slice0/Obligations.lean ====
section
/-! DEFINITION. The statements for the provers. Each docstring names the rule or section of spec/ it formalises.
"Choice" in a docstring names the log entry of a clause that is the model's own. -/

open Sys2Proof Sys2Proof.Machine Sys2Proof.Safety

/-! ## Encoding -/

/-- 30_encoding.md sections 2 to 4: the decoder reads every field the encoder writes, for every command that a word can
hold. -/
def Obligations.DecodeOfEncodeIsTheCommand : Prop :=
  ∀ i : Instr, i.wellFormed = true → decode (encode i) = .ok i

/-- 30_encoding.md section 5: a word that decodes is the word of what it decodes to, so no bit of it is without meaning. -/
def Obligations.EncodeOfDecodeIsTheWord : Prop :=
  ∀ (cw : CommandWord) (i : Instr), decode cw = .ok i → i.wellFormed = true ∧ encode i = cw

/-- Six words written out in spec/95_test_vectors.md and spec/96_derived_vectors.md. -/
def Obligations.SampleWordsDecode : Prop :=
  decode 0x0100000B000000000000000000000000#128 = .ok (.getBit 0 11) ∧
  decode 0x06000009003800000000000000000000#128 = .ok (.getBits64 0 9 56) ∧
  decode 0x0700000C0008000000000000000000AB#128 = .ok (.setBits 0 12 0xAB 8) ∧
  decode 0x080100030010000C0000000000000000#128 = .ok (.copyBits 1 3 0 12 16) ∧
  decode 0x0B000000000000000000000112345678#128 = .ok (.testParity32 0x12345678 .odd) ∧
  decode 0x11000000000900031021FFFFFFFF906E#128 =
    .ok (.crc16Chk 0 0 9 0x1021 0xFFFF true true 0xFFFF 0x906E)

/-- R68, with the halted check of R71 as a premise: a reserved opcode ends in ILLEGAL_COMMAND, and every other opcode
byte is a command's. -/
def Obligations.ReservedOpcodeIsIllegalCommand : Prop :=
  (∀ (s : State) (cw : CommandWord) (rest : List HostMove), s.pending = .command cw :: rest → Running s →
    (opcodeOf cw = 0x00 ∨ 0x12 ≤ (opcodeOf cw).toNat) →
    step s = .next (faulted 0x1 (opcodeOf cw) { s with pending := rest })) ∧
  (∀ v : Byte, (v = 0x00 ∨ 0x12 ≤ v.toNat) ↔ ¬ ∃ o, opcodeByte o = v)

/-- R69, with the halted check of R71 as a premise: a one bit in a must-be-zero range is ILLEGAL_COMMAND; a word is one
command or illegal; no two words mean the same command with the same operands. -/
def Obligations.MustBeZeroBitIsIllegalCommand : Prop :=
  (∀ (s : State) (cw : CommandWord) (rest : List HostMove) (o : Opcode) (hi lo j : Nat),
    s.pending = .command cw :: rest → Running s → opcodeOf cw = opcodeByte o → (hi, lo) ∈ mustBeZero o →
    lo ≤ j → j ≤ hi → cw.getLsbD j = true →
    step s = .next (faulted 0x1 (opcodeByte o) { s with pending := rest })) ∧
  (∀ (s : State) (cw : CommandWord) (rest : List HostMove), s.pending = .command cw :: rest → Running s →
    (∃ i, decode cw = .ok i) ∨ step s = .next (faulted 0x1 (opcodeOf cw) { s with pending := rest })) ∧
  (∀ (cw cw' : CommandWord) (i : Instr), decode cw = .ok i → decode cw' = .ok i → cw = cw')

/-! ## Steps -/

/-- 30_encoding.md section 1: where the word the host presents decodes, the step is the meaning of the command, and all
the step adds is that the move has been made. -/
def Obligations.StepRunsTheDecodedCommand : Prop :=
  ∀ (s : State) (cw : CommandWord) (rest : List HostMove) (i : Instr),
    s.pending = .command cw :: rest → decode cw = .ok i → step s = exec i { s with pending := rest }

/-- 00_scope.md section 6, 30_encoding.md section 2 (response word): every command word, legal or not, in every state,
gets exactly one response and a next state; the status says what happened. -/
def Obligations.EveryCommandWordIsAnswered : Prop :=
  ∀ (s : State) (cw : CommandWord) (rest : List HostMove), s.pending = .command cw :: rest →
    ∃ t r, step s = .next t ∧ t.rsp = some r ∧ t.pending = rest ∧
      ((statusField r = 0x00 ∧ Running s ∧ Running t ∧ ∃ i, decode cw = .ok i ∧
          (writtenBuffer i ≠ none → resultField r = 0)) ∨
        (Running s ∧ halted t = true ∧ resultField r = 0 ∧
          ∃ c, statusField r = (causeCode c).setWidth 8 ∧ causeField t.fsr = causeCode c) ∨
        (halted s = true ∧ statusField r = 0x0F ∧ resultField r = s.fsr.setWidth 64))

/-- 30_encoding.md section 1. Choice (log 8): where the host makes no move the model has no step; that is the only stop. -/
def Obligations.StepStopsOnlyWithoutAMove : Prop :=
  ∀ s : State, (s.pending = [] → step s = .fault .noHostMove) ∧ (s.pending ≠ [] → ∃ t, step s = .next t)

/-! ## Faults, the halted state, reset -/

/-- R171: whatever command word makes the engine fault, nothing is written but `FSR` and the response. -/
def Obligations.FaultEntryIsPrecise : Prop :=
  ∀ (s t : State) (cw : CommandWord) (rest : List HostMove), s.pending = .command cw :: rest → Running s →
    step s = .next t → halted t = true →
    ∃ c : Cause, t = faulted (causeCode c) (opcodeOf cw) { s with pending := rest }

/-- 10_state.md section 5: the fields of `FSR` after a fault. -/
def Obligations.FaultStatusFields : Prop :=
  ∀ (s t : State) (cw : CommandWord) (rest : List HostMove), s.pending = .command cw :: rest → Running s →
    step s = .next t → halted t = true →
    t.fsr.getLsbD 15 = true ∧ t.fsr.extractLsb' 12 3 = 0#3 ∧ opField t.fsr = opcodeOf cw ∧
      1 ≤ (causeField t.fsr).toNat ∧ (causeField t.fsr).toNat ≤ 5 ∧
      t.rsp = some ((causeField t.fsr).setWidth 8 ++ 0#64)

/-- R173: a halted engine answers every command word, legal or not, with HALTED and `FSR`, and changes nothing. -/
def Obligations.HaltedEngineAnswersHalted : Prop :=
  ∀ (s : State) (cw : CommandWord) (rest : List HostMove), s.pending = .command cw :: rest → halted s = true →
    step s = .next { s with pending := rest, rsp := some (0x0F#8 ++ s.fsr.setWidth 64) }

/-- 60_exceptions.md section 4: only a reset leaves the halted state, and a reset does leave it. -/
def Obligations.OnlyResetLeavesTheHaltedState : Prop :=
  (∀ s t : State, halted s = true → step s = .next t → Running t →
    ∃ init rest, s.pending = .reset init :: rest) ∧
  (∀ (s : State) (init : List Host.Cell) (rest : List HostMove), s.pending = .reset init :: rest →
    ∃ t, step s = .next t ∧ Running t ∧ t.pending = rest)

/-- R190: for every `INIT_BUF` there is a reset move that hands it over, and that move, wherever it stands in the host's
schedule and whatever the state, does exactly what the rule says. -/
def Obligations.ResetLoadsAnyInitBuf : Prop :=
  ∀ (c : Config) (initBuf : BufferIndex → Nat → Byte), ∃ init : List Host.Cell,
    ∀ (s : State) (rest : List HostMove), s.cfg = c → s.pending = .reset init :: rest →
      ∃ t, step s = .next t ∧ t.cfg = c ∧ t.fsr = 0x0000 ∧ t.pending = rest ∧
        ∀ (b : BufferIndex) (k : Nat), b.toNat < c.nbuf → k < c.nbytesOf b → readByte t.mem b k = initBuf b k

/-- 70_reset_and_hazards.md section 1: the fields of `FSR` after reset, for any parameters and contents, and the first
command after reset is executed like any other. Choice (log 2, 3, 4): `State.reset` is one of these states. -/
def Obligations.ResetStateIsReady : Prop :=
  State.reset = powerOn Config.reference [] ∧
  ∀ (c : Config) (init : List Host.Cell),
    (powerOn c init).fsr = 0x0000 ∧ Running (powerOn c init) ∧ (powerOn c init).cfg = c ∧
    ∀ i : Instr, i.wellFormed = true →
      step { powerOn c init with pending := [.command (encode i)] } = exec i (powerOn c init)

/-- R167: BAD_BUFFER is raised exactly where a buffer index operand is not below `NBUF`. -/
def Obligations.BadBufferExactlyWhen : Prop :=
  ∀ (i : Instr) (s : State), Running s →
    (Raises .badBuffer i s ↔ ∃ b ∈ buffersOf i, s.cfg.nbuf ≤ b.toNat)

/-- R168: BAD_KIND is raised exactly by `TEST_PARITY32` with ALWAYS0 or ALWAYS1. -/
def Obligations.BadKindExactlyWhen : Prop :=
  ∀ (i : Instr) (s : State), Running s → (Raises .badKind i s ↔ KindRefused i)

/-- R169, below BAD_BUFFER in the order of R177: BAD_LENGTH is raised exactly where the length operand is illegal. -/
def Obligations.BadLengthExactlyWhen : Prop :=
  ∀ (i : Instr) (s : State), Running s →
    (Raises .badLength i s ↔ (∀ b ∈ buffersOf i, b.toNat < s.cfg.nbuf) ∧ LengthIllegal i)

/-- R170, last in the order of R177: OUT_OF_RANGE is raised exactly where the range condition of R48 is false; the sum is
a number and does not wrap. -/
def Obligations.OutOfRangeExactlyWhen : Prop :=
  (∀ (i : Instr) (s : State), Running s →
    (Raises .outOfRange i s ↔
      (∀ b ∈ buffersOf i, b.toNat < s.cfg.nbuf) ∧ ¬ LengthIllegal i ∧ SpanOutside s i)) ∧
  (∀ (b : BufferIndex) (s : State), Running s → s.cfg.wf = true → b.toNat < s.cfg.nbuf →
    Raises .outOfRange (.reverseBits b 0xFFFF 0xFFFF) s)

/-- R177, with the halted check of R71 as a premise: the one fault reported is the first in the order of the codes; where
no condition holds the command completes. -/
def Obligations.FaultsInPriorityOrder : Prop :=
  (∀ (s : State) (cw : CommandWord) (rest : List HostMove), s.pending = .command cw :: rest → Running s →
    (∀ i, decode cw ≠ .ok i) → step s = .next (faulted 0x1 (opcodeOf cw) { s with pending := rest })) ∧
  ∀ (i : Instr) (s : State), Running s →
    ((∃ b ∈ buffersOf i, s.cfg.nbuf ≤ b.toNat) → Raises .badBuffer i s) ∧
    ((∀ b ∈ buffersOf i, b.toNat < s.cfg.nbuf) → KindRefused i → Raises .badKind i s) ∧
    ((∀ b ∈ buffersOf i, b.toNat < s.cfg.nbuf) → ¬ KindRefused i → LengthIllegal i → Raises .badLength i s) ∧
    ((∀ b ∈ buffersOf i, b.toNat < s.cfg.nbuf) → ¬ KindRefused i → ¬ LengthIllegal i → SpanOutside s i →
      Raises .outOfRange i s) ∧
    ((∀ b ∈ buffersOf i, b.toNat < s.cfg.nbuf) → ¬ KindRefused i → ¬ LengthIllegal i → ¬ SpanOutside s i →
      ∃ (t : State) (v : ResultWord), exec i s = .next t ∧ t.rsp = some (0x00#8 ++ v) ∧ SameRegisters s t)

/-! ## Invariants and frames of the whole machine -/

/-- The invariant holds at reset, for the reference configuration and for every legal one. -/
def Obligations.InvariantHoldsAtReset : Prop :=
  Invariant State.reset ∧ ∀ (c : Config) (init : List Host.Cell), c.wf = true → Invariant (powerOn c init)

/-- Every step from a state with the invariant leads to a state with the invariant. -/
def Obligations.StepKeepsTheInvariant : Prop :=
  ∀ s t : State, Invariant s → step s = .next t → Invariant t

/-- 10_state.md section 5 (configuration): no step changes the parameters. -/
def Obligations.ParametersNeverChange : Prop :=
  ∀ s t : State, step s = .next t → t.cfg = s.cfg

/-- 10_state.md section 2: a step that is no reset changes the buffers only where a writing command completes with OK,
and then only in the buffer that command names as its destination. -/
def Obligations.OnlyWritingCommandsChangeBuffers : Prop :=
  ∀ (s t : State) (cw : CommandWord) (rest : List HostMove), s.pending = .command cw :: rest → step s = .next t →
    t.mem = s.mem ∨
      (Running s ∧ Running t ∧ t.rsp = some (0x00#8 ++ 0#64) ∧
        ∃ i b, decode cw = .ok i ∧ writtenBuffer i = some b ∧
          ∀ b' k, b' ≠ b → readByte t.mem b' k = readByte s.mem b' k)

/-! ## Primitives -/

/-- R43: `SetBit` writes the one byte as the rule's mask formula says; the bit reads back and every other bit stays. -/
def Obligations.SetBitWritesOneBit : Prop :=
  ∀ (m : Memory) (b : BufferIndex) (p : Nat) (v : Bool),
    readByte (setBitAt m b p v) b (p / 8) =
      (if v = true then readByte m b (p / 8) ||| (1#8 <<< (7 - p % 8))
        else readByte m b (p / 8) &&& (0xFF#8 ^^^ (1#8 <<< (7 - p % 8)))) ∧
    bitAt (setBitAt m b p v) b p = v ∧
    ∀ b' q, (b' ≠ b ∨ q ≠ p) → bitAt (setBitAt m b p v) b' q = bitAt m b' q

/-- R42 and R44: `Bit` is the rule's shift and mask, `MemRead` is the rule's sum and is below `2^n`. -/
def Obligations.MemReadIsTheSum : Prop :=
  ∀ (m : Memory) (b : BufferIndex) (p n : Nat),
    (bitAt m b p).toNat = (readByte m b (p / 8)).toNat / 2 ^ (7 - p % 8) % 2 ∧
    memRead m b p n = ∑ i ∈ Finset.range n, (bitAt m b (p + i)).toNat * 2 ^ (n - 1 - i) ∧
    memRead m b p 0 = 0 ∧ memRead m b p n < 2 ^ n

/-- R45: after `MemWrite(b, p, n, v)`, `MemRead(b, p, n) = v mod 2^n`, and every bit outside the span is unchanged; bit
`n-1-i` of `v` is at position `p+i`. -/
def Obligations.MemWriteThenMemRead : Prop :=
  ∀ (m : Memory) (b : BufferIndex) (p n v : Nat),
    memRead (memWrite m b p n v) b p n = v % 2 ^ n ∧
    (∀ i, i < n → bitAt (memWrite m b p n v) b (p + i) = v.testBit (n - 1 - i)) ∧
    BitsOutsideSame m (memWrite m b p n v) b p n

/-- 20_memory.md section 2 (byte order and chunks): a field is its chunks one after the other, however it is cut, and an
aligned field is its bytes, the lowest index most significant. -/
def Obligations.FieldIsItsChunks : Prop :=
  ∀ (m : Memory) (b : BufferIndex),
    (∀ p n k, memRead m b p (n + k) = memRead m b p n * 2 ^ k + memRead m b (p + n) k) ∧
    (∀ k, memRead m b (8 * k) 8 = (readByte m b k).toNat) ∧
    (∀ k, memRead m b (8 * k) 16 = (readByte m b k).toNat * 256 + (readByte m b (k + 1)).toNat)

/-! ## Single bits and fields -/

/-- 40_bit_access.md, GET_BIT: the result is the bit as 0 or 1, and nothing else changes. -/
def Obligations.GetBitReturnsTheBit : Prop :=
  ∀ (s : State) (b : BufferIndex) (pos : Nat), Running s → SpanIn s b pos 1 →
    exec (.getBit b pos) s =
      .next (returns (BitVec.ofNat 64 ((readByte s.mem b (pos / 8)).toNat / 2 ^ (7 - pos % 8) % 2)) s)

/-- 40_bit_access.md, SET_BIT: the bit is written, and nothing else changes. -/
def Obligations.SetBitCommandWritesTheBit : Prop :=
  ∀ (s : State) (b : BufferIndex) (pos : Nat) (bit : Bool), Running s → SpanIn s b pos 1 →
    ∃ t, exec (.setBit b pos bit) s = .next t ∧ bitAt t.mem b pos = bit ∧ WritesOnly s t b pos 1

/-- 41_field_read.md: the four reads return the field as the sum of R100, zero-extended, within their limits 8, 16, 32 and
64, and change nothing else. -/
def Obligations.FieldReadsReturnTheField : Prop :=
  ∀ (s : State) (b : BufferIndex) (pos len : Nat), Running s → SpanIn s b pos len → 1 ≤ len →
    fieldSum s.mem b pos len < 2 ^ len ∧
    (len ≤ 8 → exec (.getBits8 b pos len) s = .next (returns (BitVec.ofNat 64 (fieldSum s.mem b pos len)) s)) ∧
    (len ≤ 16 → exec (.getBits16 b pos len) s = .next (returns (BitVec.ofNat 64 (fieldSum s.mem b pos len)) s)) ∧
    (len ≤ 32 → exec (.getBits32 b pos len) s = .next (returns (BitVec.ofNat 64 (fieldSum s.mem b pos len)) s)) ∧
    (len ≤ 64 → exec (.getBits64 b pos len) s = .next (returns (BitVec.ofNat 64 (fieldSum s.mem b pos len)) s))

/-- 41_field_read.md, last section (field isolation): the response of a read depends on the bits of its span only. -/
def Obligations.FieldReadsAreIsolated : Prop :=
  ∀ (s s' : State) (b : BufferIndex) (pos len : Nat), Running s → Running s' → s.cfg = s'.cfg →
    (∀ i, i < len → bitAt s.mem b (pos + i) = bitAt s'.mem b (pos + i)) →
    ∀ i ∈ [Instr.getBits8 b pos len, .getBits16 b pos len, .getBits32 b pos len, .getBits64 b pos len],
      ∃ t t', exec i s = .next t ∧ exec i s' = .next t' ∧ t.rsp = t'.rsp

/-- 42_field_write_copy.md, SET_BITS: the low `len` bits of the operand, most significant first; the bits above are
ignored; nothing else changes. -/
def Obligations.SetBitsWritesTheField : Prop :=
  ∀ (s : State) (b : BufferIndex) (pos : Nat) (val : Byte) (len : Nat), Running s → SpanIn s b pos len → 1 ≤ len →
    len ≤ 8 →
    ∃ t, exec (.setBits b pos val len) s = .next t ∧
      (∀ i, i < len → bitAt t.mem b (pos + i) = val.getLsbD (len - 1 - i)) ∧
      memRead t.mem b pos len = val.toNat % 2 ^ len ∧ WritesOnly s t b pos len

/-! ## Copy, reverse, push -/

/-- 42_field_write_copy.md, COPY_BITS: it completes for every length, 0 too, and writes the destination span only; where
the destination does not start inside the source span, each bit is the old source bit. -/
def Obligations.CopyBitsCopiesTheSpan : Prop :=
  ∀ (s : State) (dst src : BufferIndex) (dstPos srcPos len : Nat), Running s → SpanIn s dst dstPos len →
    SpanIn s src srcPos len →
    ∃ t, exec (.copyBits dst dstPos src srcPos len) s = .next t ∧ WritesOnly s t dst dstPos len ∧
      ((dst ≠ src ∨ dstPos ≤ srcPos ∨ srcPos + len ≤ dstPos) →
        ∀ i, i < len → bitAt t.mem dst (dstPos + i) = bitAt s.mem src (srcPos + i))

/-- 42_field_write_copy.md, COPY_BITS within one buffer with the destination starting inside the source span: the first
`dstPos - srcPos` source bits repeat. -/
def Obligations.OverlappingCopyRepeatsItsFirstBits : Prop :=
  ∀ (s : State) (b : BufferIndex) (dstPos srcPos len : Nat), Running s → SpanIn s b dstPos len →
    srcPos < dstPos → dstPos < srcPos + len →
    ∃ t, exec (.copyBits b dstPos b srcPos len) s = .next t ∧ WritesOnly s t b dstPos len ∧
      ∀ i, i < len → bitAt t.mem b (dstPos + i) = bitAt s.mem b (srcPos + i % (dstPos - srcPos))

/-- 43_reverse_push.md, REVERSE_BITS: the span in the opposite order, for every length, and nothing else changes. -/
def Obligations.ReverseBitsReversesTheSpan : Prop :=
  ∀ (s : State) (b : BufferIndex) (pos len : Nat), Running s → SpanIn s b pos len →
    ∃ t, exec (.reverseBits b pos len) s = .next t ∧ WritesOnly s t b pos len ∧
      ∀ i, i < len → bitAt t.mem b (pos + i) = bitAt s.mem b (pos + len - 1 - i)

/-- R13: twice the same span restores the original bits; of a canonical memory, the memory itself. -/
def Obligations.ReverseBitsIsAnInvolution : Prop :=
  ∀ (s : State) (b : BufferIndex) (pos len : Nat), Running s → SpanIn s b pos len →
    ∃ t u, exec (.reverseBits b pos len) s = .next t ∧ exec (.reverseBits b pos len) t = .next u ∧
      (∀ b' p, bitAt u.mem b' p = bitAt s.mem b' p) ∧ (Memory.wf s.mem = true → u.mem = s.mem)

/-- 43_reverse_push.md, PUSH_BIT: every bit moves one position toward position 0, the operand enters at the end, the old
first bit is discarded, and no other buffer changes. -/
def Obligations.PushBitShiftsTheBuffer : Prop :=
  ∀ (s : State) (b : BufferIndex) (bit : Bool), Running s → b.toNat < s.cfg.nbuf →
    ∃ t, exec (.pushBit b bit) s = .next t ∧ WritesOnly s t b 0 (s.cfg.nbits b) ∧
      (∀ p, p + 1 < s.cfg.nbits b → bitAt t.mem b p = bitAt s.mem b (p + 1)) ∧
      (1 ≤ s.cfg.nbytesOf b → bitAt t.mem b (s.cfg.nbits b - 1) = bit)

/-- 43_reverse_push.md, PUSH_BIT corner case: after `NBITS(b)` pushes the buffer holds exactly the bits pushed, the
earliest at position 0. -/
def Obligations.PushedStreamFillsTheBuffer : Prop :=
  ∀ (s : State) (b : BufferIndex) (bits : List Bool), Running s → b.toNat < s.cfg.nbuf →
    bits.length = s.cfg.nbits b →
    ∃ t, execAll (bits.map (Instr.pushBit b)) s = .next t ∧
      ∀ p, p < s.cfg.nbits b → bits[p]? = some (bitAt t.mem b p)

/-! ## The pseudo-instructions -/

/-- 30_encoding.md section 6 (pseudo-instructions): `STB` stores one byte and no other, `LDB` returns the byte. -/
def Obligations.StoreByteAndLoadByte : Prop :=
  ∀ (s : State) (b : BufferIndex) (k : Nat) (byte : Byte), Running s → b.toNat < s.cfg.nbuf → k < s.cfg.nbytesOf b →
    (∃ t, execAll (expandPseudo (.stb b k byte)) s = .next t ∧ t.rsp = some (0x00#8 ++ 0#64) ∧ SameRegisters s t ∧
      readByte t.mem b k = byte ∧ ∀ b' k', (b' ≠ b ∨ k' ≠ k) → readByte t.mem b' k' = readByte s.mem b' k') ∧
    execAll (expandPseudo (.ldb b k)) s = .next (returns ((readByte s.mem b k).setWidth 64) s)

/-- 42_field_write_copy.md, SETF: the expansion writes the field and nothing else. -/
def Obligations.SetfWritesTheField : Prop :=
  ∀ (s : State) (b : BufferIndex) (pos : Nat) (value : BitVec 64) (len : Nat), Running s → SpanIn s b pos len →
    1 ≤ len → len ≤ 64 →
    (expandPseudo (.setf b pos value len)).length = (len + 7) / 8 ∧
    ∃ t, execAll (expandPseudo (.setf b pos value len)) s = .next t ∧
      memRead t.mem b pos len = value.toNat % 2 ^ len ∧ SameRegisters s t ∧ BitsOutsideSame s.mem t.mem b pos len

/-- 42_field_write_copy.md, SETF past the end of the buffer: the chunks that fit are written and stay written, the next
one faults OUT_OF_RANGE, and nothing after it has an effect. -/
def Obligations.SetfPastTheEndKeepsItsEarlierChunks : Prop :=
  ∀ (s : State) (b : BufferIndex) (pos : Nat) (value : BitVec 64) (len : Nat), Running s → b.toNat < s.cfg.nbuf →
    1 ≤ len → len ≤ 64 → s.cfg.nbits b < pos + len →
    ∃ t, execAll (expandPseudo (.setf b pos value len)) s = .next t ∧ t.cfg = s.cfg ∧ t.pending = s.pending ∧
      t.fsr = 0x8507 ∧
      memRead t.mem b pos (8 * ((s.cfg.nbits b - pos) / 8)) =
        value.toNat / 2 ^ (len - 8 * ((s.cfg.nbits b - pos) / 8)) % 2 ^ (8 * ((s.cfg.nbits b - pos) / 8)) ∧
      BitsOutsideSame s.mem t.mem b pos (8 * ((s.cfg.nbits b - pos) / 8))

/-- 00_scope.md section 7 (first law): what a field read returns, written back over the same span with SETF, leaves every
byte as it was. -/
def Obligations.ReadThenSetfRestoresEveryByte : Prop :=
  ∀ (s : State) (b : BufferIndex) (pos len : Nat), Running s → SpanIn s b pos len → 1 ≤ len → len ≤ 64 →
    ∃ (v : ResultWord) (t u : State), exec (.getBits64 b pos len) s = .next t ∧ t.rsp = some (0x00#8 ++ v) ∧
      (len ≤ 8 → exec (.getBits8 b pos len) s = .next t) ∧ (len ≤ 16 → exec (.getBits16 b pos len) s = .next t) ∧
      (len ≤ 32 → exec (.getBits32 b pos len) s = .next t) ∧
      execAll (expandPseudo (.setf b pos v len)) t = .next u ∧
      ∀ a, Memory.read u.mem a = Memory.read s.mem a

/-! ## Parity -/

/-- R14: `TEST_PARITY32` with EVEN and ODD agrees with counting the ones mod 2, for both values of the parameter, and
depends on its value only through that; nothing else changes. -/
def Obligations.TestParityAgreesWithPopcount : Prop :=
  (∀ (s : State) (v : BitVec 32) (odd : Bool), Running s →
    exec (.testParity32 v (if odd then .odd else .even)) s =
      .next (returns (if onesOf v % 2 = passResidue s.cfg odd then 1 else 0) s)) ∧
  (∀ (s : State) (v v' : BitVec 32) (kind : ParityKind), onesOf v % 2 = onesOf v' % 2 →
    exec (.testParity32 v kind) s = exec (.testParity32 v' kind) s)

/-- 44_parity.md, GEN_PARITY32, all four kinds: the bit to append; nothing else changes. -/
def Obligations.GenParityReturnsTheBit : Prop :=
  ∀ (s : State) (v : BitVec 32), Running s →
    exec (.genParity32 v .even) s =
      .next (returns (BitVec.ofNat 64 ((onesOf v + passResidue s.cfg false) % 2)) s) ∧
    exec (.genParity32 v .odd) s =
      .next (returns (BitVec.ofNat 64 ((onesOf v + passResidue s.cfg true) % 2)) s) ∧
    exec (.genParity32 v .always0) s = .next (returns 0 s) ∧
    exec (.genParity32 v .always1) s = .next (returns 1 s)

/-- 44_parity.md, the law of GEN_PARITY32: the value followed by the generated bit passes the test of the same kind. -/
def Obligations.GeneratedParityPassesTheTest : Prop :=
  ∀ (s : State) (v : BitVec 32) (odd : Bool), Running s → v.toNat < 2 ^ 31 →
    ∃ p : ResultWord, exec (.genParity32 v (if odd then .odd else .even)) s = .next (returns p s) ∧
      exec (.testParity32 (BitVec.ofNat 32 (2 * v.toNat + p.toNat)) (if odd then .odd else .even)) s =
        .next (returns 1 s)

/-- 44_parity.md, the law of GEN_PARITY32 for blocks, all four kinds: `w-1` data bits in a buffer followed by the bit
generated for them pass CHECK_PARITY with block size `w`. -/
def Obligations.GeneratedBlockPassesTheCheck : Prop :=
  ∀ (s : State) (b : BufferIndex) (pos w : Nat) (kind : ParityKind), Running s → SpanIn s b pos w → 1 ≤ w → w ≤ 32 →
    ∃ (p : Bool) (t u : State),
      exec (.genParity32 (BitVec.ofNat 32 (memRead s.mem b pos (w - 1))) kind) s =
        .next (returns (BitVec.ofNat 64 p.toNat) s) ∧
      exec (.setBit b (pos + w - 1) p) s = .next t ∧ exec (.checkParity b pos w kind w) t = .next u ∧
      u.rsp = some (0x00#8 ++ 1#64)

/-- 44_parity.md, CHECK_PARITY: the result is 1 exactly where every whole block passes; the rest of the span is not
tested; with no whole block the result is 1; nothing else changes. -/
def Obligations.CheckParityTestsEveryWholeBlock : Prop :=
  ∀ (s : State) (b : BufferIndex) (pos len bsz : Nat), Running s → SpanIn s b pos len → 1 ≤ bsz → bsz ≤ 32 →
    ∃ r : ParityKind → Bool,
      (∀ kind, exec (.checkParity b pos len kind bsz) s = .next (returns (BitVec.ofNat 64 (r kind).toNat) s)) ∧
      (r .even = true ↔
        ∀ i, i < len / bsz → onesInSpan s.mem b (pos + i * bsz) bsz % 2 = passResidue s.cfg false) ∧
      (r .odd = true ↔
        ∀ i, i < len / bsz → onesInSpan s.mem b (pos + i * bsz) bsz % 2 = passResidue s.cfg true) ∧
      (r .always0 = true ↔ ∀ i, i < len / bsz → bitAt s.mem b (pos + i * bsz + bsz - 1) = false) ∧
      (r .always1 = true ↔ ∀ i, i < len / bsz → bitAt s.mem b (pos + i * bsz + bsz - 1) = true)

/-! ## CRC -/

/-- 45_crc.md, CRC8 and CRC16: the result is the algorithm of R147 computed on numbers, zero-extended; nothing else
changes. The algorithm is the spec's general knowledge (log 12). -/
def Obligations.CrcReturnsTheChecksum : Prop :=
  (∀ (s : State) (b : BufferIndex) (off cnt : Nat) (poly init xorout : BitVec 8) (refin refout : Bool), Running s →
    BytesIn s b off cnt →
    exec (.crc8 b off cnt poly init refin refout xorout) s =
      .next (returns (BitVec.ofNat 64
        (crcNum 8 (dataNums s.mem b off cnt) poly.toNat init.toNat refin refout xorout.toNat)) s)) ∧
  (∀ (s : State) (b : BufferIndex) (off cnt : Nat) (poly init xorout : BitVec 16) (refin refout : Bool), Running s →
    BytesIn s b off cnt →
    exec (.crc16 b off cnt poly init refin refout xorout) s =
      .next (returns (BitVec.ofNat 64
        (crcNum 16 (dataNums s.mem b off cnt) poly.toNat init.toNat refin refout xorout.toNat)) s))

/-- 45_crc.md, CRC8_CHK and CRC16_CHK: the value the generator returns, compared with the operand; a mismatch is the
result 0 and no fault; nothing else changes. -/
def Obligations.CrcCheckersCompareWithTheGenerator : Prop :=
  (∀ (s : State) (b : BufferIndex) (off cnt : Nat) (poly init xorout expect : BitVec 8) (refin refout : Bool),
    Running s → BytesIn s b off cnt →
    ∃ c : BitVec 8, exec (.crc8 b off cnt poly init refin refout xorout) s = .next (returns (c.setWidth 64) s) ∧
      exec (.crc8Chk b off cnt poly init refin refout xorout expect) s =
        .next (returns (if c = expect then 1 else 0) s)) ∧
  (∀ (s : State) (b : BufferIndex) (off cnt : Nat) (poly init xorout expect : BitVec 16) (refin refout : Bool),
    Running s → BytesIn s b off cnt →
    ∃ c : BitVec 16, exec (.crc16 b off cnt poly init refin refout xorout) s = .next (returns (c.setWidth 64) s) ∧
      exec (.crc16Chk b off cnt poly init refin refout xorout expect) s =
        .next (returns (if c = expect then 1 else 0) s))

/-- 45_crc.md, last point of the algorithm: from a zero register, one step a data bit is the textbook form that appends
`W` zero bits to the data. -/
def Obligations.CrcIsTheTextbookFormWithoutAppendedZeros : Prop :=
  ∀ (w : Nat) (poly : BitVec w) (data : List Byte), 1 ≤ w →
    crcValue data poly 0 false false 0 =
      (data.flatMap bitsOfByte ++ List.replicate w false).foldl (textbookBit poly) 0

/-- 45_crc.md, consequences: without reflection and with `xorout = 0`, data followed by its own CRC, most significant byte
first, has the CRC 0. -/
def Obligations.CrcOfDataAndItsCrcIsZero : Prop :=
  (∀ (poly init : BitVec 8) (data : List Byte),
    crcValue (data ++ [crcValue data poly init false false 0]) poly init false false 0 = 0) ∧
  (∀ (poly init : BitVec 16) (data : List Byte),
    crcValue (data ++ [(crcValue data poly init false false 0).extractLsb' 8 8,
      (crcValue data poly init false false 0).extractLsb' 0 8]) poly init false false 0 = 0)

/-- 45_crc.md, the CRC function and its consequences: empty data; leading zero bytes with `init = 0`; a CRC is continued by
passing the result back as `init` where the first had `refout = 0` and `xorout = 0`. -/
def Obligations.CrcEmptyLeadingZerosAndContinuation : Prop :=
  ∀ (w : Nat) (poly init xorout : BitVec w) (refin refout : Bool) (data more : List Byte) (n : Nat),
    crcValue [] poly init refin refout xorout = (if refout then init.reverse else init) ^^^ xorout ∧
    crcValue (List.replicate n 0 ++ data) poly 0 refin refout xorout = crcValue data poly 0 refin refout xorout ∧
    crcValue (data ++ more) poly init refin refout xorout =
      crcValue more poly (crcValue data poly init refin false 0) refin refout xorout
end

