-- ==== Sys2Proof/Laws/Memory.lean ====
section
/-! SUPPORT. What the memory operations do, said once each: cells, bytes, bits, fields. The reading laws hold of every
list of cells; the canonical form is kept by every write, and two canonical memories that read alike are equal. -/

namespace Sys2Proof.Laws

open Sys2Proof.Machine

/-! ## Cells -/

theorem read_erase (m : Memory) (a a' : Nat) :
    Memory.read (Memory.erase m a) a' = if a' = a then unlistedByte else Memory.read m a' := by
  induction m with
  | nil => simp [Memory.erase, Memory.read]
  | cons c rest ih =>
    simp only [Memory.erase] at ih ⊢
    by_cases hc : c.1 = a <;> by_cases h : c.1 = a' <;> simp_all [Memory.read]

theorem read_insert (m : Memory) (a a' : Nat) (v : Byte) (h : ∀ c ∈ m, c.1 ≠ a) :
    Memory.read (Memory.insert m a v) a' = if a' = a then v else Memory.read m a' := by
  induction m with
  | nil =>
    by_cases h : a' = a
    · simp [Memory.insert, Memory.read, h]
    · simp [Memory.insert, Memory.read, h, Ne.symm h]
  | cons c rest ih =>
    have hc := h c (by simp)
    have ih := ih fun d hd => h d (by simp [hd])
    simp only [Memory.insert]
    by_cases h1 : a' = a
    · subst h1; split <;> simp [Memory.read, hc, ih]
    · split <;> simp [Memory.read, h1, Ne.symm h1, ih]

theorem mem_erase {m : Memory} {a : Nat} {c : Host.Cell} : c ∈ Memory.erase m a ↔ c ∈ m ∧ c.1 ≠ a := by
  simp [Memory.erase]

theorem mem_insert {m : Memory} {a : Nat} {v : Byte} {c : Host.Cell} :
    c ∈ Memory.insert m a v ↔ c = (a, v) ∨ c ∈ m := by
  induction m with
  | nil => simp [Memory.insert]
  | cons d rest ih =>
    simp only [Memory.insert]
    split <;> simp_all [or_left_comm]

/-- Read after write, at the same address and at another. -/
theorem read_write (m : Memory) (a a' : Nat) (v : Byte) :
    Memory.read (Memory.write m a v) a' = if a' = a then v else Memory.read m a' := by
  unfold Memory.write
  split
  · rw [read_erase]; simp_all
  · rw [read_insert _ _ _ _ fun c hc => (mem_erase.1 hc).2, read_erase]; split <;> rfl

/-- A cell of a written memory is the written one or was there. -/
theorem mem_write {m : Memory} {a : Nat} {v : Byte} {c : Host.Cell} (h : c ∈ Memory.write m a v) :
    c = (a, v) ∨ c ∈ m := by
  unfold Memory.write at h
  split at h
  · exact .inr (mem_erase.1 h).1
  · exact (mem_insert.1 h).imp id fun h => (mem_erase.1 h).1

theorem wf_cons {c : Host.Cell} {m : Memory} :
    Memory.wf (c :: m) = true ↔ c.2 ≠ unlistedByte ∧ (∀ d ∈ m, c.1 < d.1) ∧ Memory.wf m = true := by
  simp [Memory.wf, and_assoc]

theorem erase_wf {m : Memory} (a : Nat) (h : Memory.wf m = true) : Memory.wf (Memory.erase m a) = true := by
  induction m with
  | nil => rfl
  | cons c rest ih =>
    obtain ⟨hv, hlt, hr⟩ := wf_cons.1 h
    have : Memory.erase (c :: rest) a = if c.1 = a then Memory.erase rest a else c :: Memory.erase rest a := by
      by_cases hc : c.1 = a <;> simp [Memory.erase, hc]
    rw [this]
    split
    · exact ih hr
    · exact wf_cons.2 ⟨hv, fun d hd => hlt d (mem_erase.1 hd).1, ih hr⟩

theorem insert_wf {m : Memory} (a : Nat) (v : Byte) (h : Memory.wf m = true) (hv : v ≠ unlistedByte)
    (hne : ∀ c ∈ m, c.1 ≠ a) : Memory.wf (Memory.insert m a v) = true := by
  induction m with
  | nil => exact wf_cons.2 ⟨hv, by simp, rfl⟩
  | cons c rest ih =>
    obtain ⟨hc, hlt, hr⟩ := wf_cons.1 h
    simp only [Memory.insert]
    split
    · next hlt' =>
      refine wf_cons.2 ⟨hv, fun d hd => ?_, h⟩
      rcases List.mem_cons.1 hd with rfl | hd
      · exact hlt'
      · exact hlt'.trans (hlt d hd)
    · next hge =>
      refine wf_cons.2 ⟨hc, fun d hd => ?_, ih hr fun d hd => hne d (by simp [hd])⟩
      rcases mem_insert.1 hd with rfl | hd
      · have := hne c (by simp); simp only; omega
      · exact hlt d hd

/-- Every write keeps the canonical form. -/
theorem write_wf {m : Memory} (a : Nat) (v : Byte) (h : Memory.wf m = true) :
    Memory.wf (Memory.write m a v) = true := by
  unfold Memory.write
  split
  · exact erase_wf a h
  · next hv => exact insert_wf a v (erase_wf a h) hv fun c hc => (mem_erase.1 hc).2

theorem read_of_lt {m : Memory} {a : Nat} (h : ∀ c ∈ m, a < c.1) : Memory.read m a = unlistedByte := by
  induction m with
  | nil => rfl
  | cons c rest ih =>
    have hc := h c (by simp)
    simp only [Memory.read]
    rw [if_neg (by omega)]
    exact ih fun d hd => h d (by simp [hd])

/-- Two canonical memories that read alike are the same data. -/
theorem eq_of_read_eq {m m' : Memory} (h : Memory.wf m = true) (h' : Memory.wf m' = true)
    (he : ∀ a, Memory.read m a = Memory.read m' a) : m = m' := by
  induction m generalizing m' with
  | nil =>
    cases m' with
    | nil => rfl
    | cons c rest =>
      exact absurd (by simpa [Memory.read] using (he c.1).symm) (wf_cons.1 h').1
  | cons c rest ih =>
    cases m' with
    | nil => exact absurd (by simpa [Memory.read] using he c.1) (wf_cons.1 h).1
    | cons d rest' =>
      obtain ⟨hc, hlt, hr⟩ := wf_cons.1 h
      obtain ⟨hd, hlt', hr'⟩ := wf_cons.1 h'
      have hcd : c.1 = d.1 := by
        rcases lt_trichotomy c.1 d.1 with hl | he' | hl
        · refine absurd ?_ hc
          have := he c.1
          rw [read_of_lt (m := d :: rest')
            (by simpa using ⟨hl, fun a b hab => hl.trans (hlt' (a, b) hab)⟩)] at this
          simpa [Memory.read] using this
        · exact he'
        · refine absurd ?_ hd
          have := he d.1
          rw [read_of_lt (m := c :: rest)
            (by simpa using ⟨hl, fun a b hab => hl.trans (hlt (a, b) hab)⟩)] at this
          simpa [Memory.read] using this.symm
      have hv : c.2 = d.2 := by simpa [Memory.read, hcd] using he c.1
      have hrest : rest = rest' := by
        refine ih hr hr' fun a => ?_
        by_cases ha : c.1 = a
        · rw [read_of_lt fun e he => ha ▸ hlt e he, read_of_lt fun e he => ha ▸ hcd ▸ hlt' e he]
        · have := he a
          simpa [Memory.read, ha, hcd ▸ ha] using this
      rw [hrest, show c = d from Prod.ext hcd hv]

/-! ## Bytes -/

/-- Distinct bytes have distinct addresses, whatever the buffer lengths. -/
theorem cellAddr_inj {b b' : BufferIndex} {k k' : Nat} : cellAddr b k = cellAddr b' k' ↔ b = b' ∧ k = k' := by
  unfold cellAddr
  have := b.isLt; have := b'.isLt
  constructor
  · intro h; exact ⟨BitVec.eq_of_toNat_eq (by omega), by omega⟩
  · rintro ⟨rfl, rfl⟩; rfl

/-- Every address is some byte's. -/
theorem cellAddr_surj (a : Nat) : cellAddr (BitVec.ofNat 4 a) (a / 16) = a := by
  simp only [cellAddr, BitVec.toNat_ofNat]; omega

theorem cellExists_cellAddr (c : Config) (b : BufferIndex) (k : Nat) :
    cellExists c (cellAddr b k) = decide (k < c.nbytesOf b) := by
  have hb := b.isLt
  have h1 : cellAddr b k / 16 = k := by unfold cellAddr; omega
  have h2 : BitVec.ofNat 4 (cellAddr b k) = b := BitVec.eq_of_toNat_eq (by simp [cellAddr]; omega)
  simp [cellExists, h1, h2]

theorem readByte_writeByte (m : Memory) (b b' : BufferIndex) (k k' : Nat) (v : Byte) :
    readByte (writeByte m b k v) b' k' = if b' = b ∧ k' = k then v else readByte m b' k' := by
  simp [readByte, writeByte, read_write, cellAddr_inj]

/-- What a fill writes: byte `k` of the buffer is `f k` below the count, and nothing else changes. -/
theorem readByte_fillBytes (m : Memory) (b b' : BufferIndex) (f : Nat → Byte) (n k : Nat) :
    readByte (fillBytes m b f n) b' k = if b' = b ∧ k < n then f k else readByte m b' k := by
  induction n with
  | zero => simp [fillBytes]
  | succ n ih =>
    rw [fillBytes, readByte_writeByte, ih]
    by_cases h : b' = b
    · subst h
      rcases lt_trichotomy k n with hk | rfl | hk
      · simp [hk, hk.ne, Nat.lt_succ_of_lt hk]
      · simp
      · simp [hk.ne', show ¬ k < n by omega, show ¬ k < n + 1 by omega]
    · simp [h]

/-! ## Bits -/

theorem bitMask_getLsbD (p i : Nat) (hi : i < 8) : (bitMask p).getLsbD i = decide (i = 7 - p % 8) := by
  have h8 : 7 - p % 8 < 8 := by omega
  simp only [bitMask, BitVec.getLsbD_shiftLeft, BitVec.getLsbD_one, hi, decide_true, Bool.true_and]
  by_cases h : i = 7 - p % 8
  · simp [h]
  · simp [h]; omega

/-- `SetBit` at the level of bits (20_memory.md R43). -/
theorem bitAt_setBitAt (m : Memory) (b b' : BufferIndex) (p q : Nat) (v : Bool) :
    bitAt (setBitAt m b p v) b' q = if b' = b ∧ q = p then v else bitAt m b' q := by
  simp only [bitAt, setBitAt, readByte_writeByte]
  by_cases hb : b' = b ∧ q / 8 = p / 8
  · obtain ⟨rfl, hk⟩ := hb
    have hq : 7 - q % 8 < 8 := by omega
    have hiff : (7 - q % 8 = 7 - p % 8) ↔ q = p := by omega
    simp only [hk, and_self, if_true]
    cases v
    · simp only [Bool.false_eq_true, if_false, BitVec.getLsbD_and, BitVec.getLsbD_xor, bitMask_getLsbD p _ hq, hiff]
      have : (0xFF#8).getLsbD (7 - q % 8) = true := by
        have : ∀ i < 8, (0xFF#8).getLsbD i = true := by decide
        exact this _ hq
      by_cases h : q = p
      · subst h; simp [this]
      · simp [h, this]
    · simp only [if_true, BitVec.getLsbD_or, bitMask_getLsbD p _ hq, hiff]
      by_cases h : q = p <;> simp [h]
  · rw [if_neg hb]
    have : ¬ (b' = b ∧ q = p) := fun ⟨h1, h2⟩ => hb ⟨h1, by rw [h2]⟩
    rw [if_neg this]

theorem bitAt_setBitAt_same (m : Memory) (b : BufferIndex) (p : Nat) (v : Bool) :
    bitAt (setBitAt m b p v) b p = v := by
  simp [bitAt_setBitAt]

/-- A byte is its eight bits: two memories that agree on the bits of a byte agree on the byte. -/
theorem readByte_eq_of_bits {m m' : Memory} {b : BufferIndex} {k : Nat}
    (h : ∀ p, p / 8 = k → bitAt m b p = bitAt m' b p) : readByte m b k = readByte m' b k := by
  apply BitVec.eq_of_getLsbD_eq
  intro i hi
  have := h (8 * k + (7 - i)) (by omega)
  simp only [bitAt] at this
  rwa [show (8 * k + (7 - i)) / 8 = k by omega, show 7 - (8 * k + (7 - i)) % 8 = i by omega] at this

/-- Two memories that agree on every bit read alike at every address. -/
theorem read_eq_of_bits {m m' : Memory} (h : ∀ b p, bitAt m b p = bitAt m' b p) (a : Nat) :
    Memory.read m a = Memory.read m' a := by
  have := readByte_eq_of_bits (m := m) (m' := m') (b := BitVec.ofNat 4 a) (k := a / 16) fun p _ => h _ p
  simpa [readByte, cellAddr_surj] using this

/-! ## Fields -/

theorem memRead_lt (m : Memory) (b : BufferIndex) (p n : Nat) : memRead m b p n < 2 ^ n := by
  induction n generalizing p with
  | zero => simp [memRead]
  | succ n ih =>
    have := ih (p + 1)
    simp only [memRead, pow_succ]
    cases bitAt m b p <;> simp <;> omega

/-- The bits of a field: bit `i` is at position `p + n - 1 - i` (20_memory.md R44). -/
theorem memRead_testBit (m : Memory) (b : BufferIndex) (p n i : Nat) :
    (memRead m b p n).testBit i = (decide (i < n) && bitAt m b (p + n - 1 - i)) := by
  induction n generalizing p with
  | zero => simp [memRead]
  | succ n ih =>
    have hlt := memRead_lt m b (p + 1) n
    rw [memRead, Nat.mul_comm, Nat.testBit_two_pow_mul_add _ hlt, ih]
    by_cases h : i < n
    · simp only [h, if_true, decide_true, Bool.true_and, Nat.lt_succ_of_lt h]
      congr 1; omega
    · by_cases h' : i = n
      · subst h'
        simp only [lt_irrefl, if_false, Nat.sub_self, Nat.lt_succ_self, decide_true, Bool.true_and]
        rw [show p + (i + 1) - 1 - i = p by omega]
        cases bitAt m b p <;> simp
      · have : ¬ i < n + 1 := by omega
        simp only [h, if_false, this, decide_false, Bool.false_and]
        cases bitAt m b p
        · simp
        · obtain ⟨j, hj⟩ : ∃ j, i - n = j + 1 := ⟨i - n - 1, by omega⟩
          simp [hj, Nat.testBit_succ]

/-- A field depends on the bits of its span only. -/
theorem memRead_congr {m m' : Memory} {b b' : BufferIndex} {p p' n : Nat}
    (h : ∀ i, i < n → bitAt m b (p + i) = bitAt m' b' (p' + i)) : memRead m b p n = memRead m' b' p' n := by
  induction n generalizing p p' with
  | zero => rfl
  | succ n ih =>
    have h0 := h 0 (by omega)
    simp only [Nat.add_zero] at h0
    rw [memRead, memRead, h0, ih fun i hi => ?_]
    have := h (i + 1) (by omega)
    rwa [show p + (i + 1) = p + 1 + i by omega, show p' + (i + 1) = p' + 1 + i by omega] at this

/-- `MemWrite` at the level of bits (20_memory.md R45). -/
theorem bitAt_memWrite (m : Memory) (b b' : BufferIndex) (p n v q : Nat) :
    bitAt (memWrite m b p n v) b' q =
      if b' = b ∧ p ≤ q ∧ q < p + n then v.testBit (p + n - 1 - q) else bitAt m b' q := by
  induction n generalizing m p with
  | zero => simp only [memWrite]; rw [if_neg (by omega)]
  | succ n ih =>
    rw [memWrite, ih, bitAt_setBitAt]
    by_cases hb : b' = b
    · subst hb
      by_cases h1 : p + 1 ≤ q ∧ q < p + 1 + n
      · rw [if_pos ⟨rfl, h1⟩, if_pos ⟨rfl, by omega, by omega⟩]; congr 1; omega
      · rw [if_neg (by tauto)]
        by_cases h2 : q = p
        · subst h2; rw [if_pos ⟨rfl, rfl⟩, if_pos ⟨rfl, by omega, by omega⟩]; congr 1; omega
        · rw [if_neg (by tauto), if_neg (by omega)]
    · simp [hb]

/-! ## The canonical form and the cells of each operation -/

/-- A memory reached from another by writing bytes of one buffer below a length. -/
inductive Writes (b : BufferIndex) (len : Nat) : Memory → Memory → Prop where
  | refl (m : Memory) : Writes b len m m
  | write {m m' : Memory} (k : Nat) (v : Byte) (hk : k < len) (h : Writes b len m m') :
    Writes b len m (writeByte m' b k v)

theorem Writes.trans {b : BufferIndex} {len : Nat} {m m' m'' : Memory} (h : Writes b len m m')
    (h' : Writes b len m' m'') : Writes b len m m'' := by
  induction h' with
  | refl => exact h
  | write k v hk _ ih => exact .write k v hk ih

/-- Writing bytes keeps the canonical form. -/
theorem Writes.wf {b : BufferIndex} {len : Nat} {m m' : Memory} (h : Writes b len m m') (hm : Memory.wf m = true) :
    Memory.wf m' = true := by
  induction h with
  | refl => exact hm
  | write k v hk _ ih => exact write_wf _ _ ih

/-- Writing bytes below the length of the buffer lists no byte that does not exist. -/
theorem Writes.cells {c : Config} {b : BufferIndex} {m m' : Memory} (h : Writes b (c.nbytesOf b) m m')
    (hm : ∀ cell ∈ m, cellExists c cell.1 = true) : ∀ cell ∈ m', cellExists c cell.1 = true := by
  induction h with
  | refl => exact hm
  | write k v hk _ ih =>
    intro cell hc
    rcases mem_write hc with rfl | hc
    · simpa [cellExists_cellAddr] using hk
    · exact ih cell hc

/-- Writing bytes of one buffer leaves the other buffers. -/
theorem Writes.readByte_other {b b' : BufferIndex} {len k : Nat} {m m' : Memory} (h : Writes b len m m')
    (hb : b' ≠ b) : readByte m' b' k = readByte m b' k := by
  induction h with
  | refl => rfl
  | write k v hk _ ih => rw [readByte_writeByte, if_neg (by tauto), ih]

theorem setBitAt_writes {b : BufferIndex} {len p : Nat} (m : Memory) (v : Bool) (h : p < 8 * len) :
    Writes b len m (setBitAt m b p v) :=
  .write _ _ (by omega) (.refl m)

theorem memWrite_writes {b : BufferIndex} {len p n : Nat} (m : Memory) (v : Nat) (h : p + n ≤ 8 * len) :
    Writes b len m (memWrite m b p n v) := by
  induction n generalizing m p with
  | zero => exact .refl m
  | succ n ih => exact (setBitAt_writes m _ (by omega)).trans (ih _ (by omega))

theorem fillBytes_writes {b : BufferIndex} {len n : Nat} (m : Memory) (f : Nat → Byte) (h : n ≤ len) :
    Writes b len m (fillBytes m b f n) := by
  induction n with
  | zero => exact .refl m
  | succ n ih => exact .write n _ (by omega) (ih (by omega))

/-- `INIT_BUF` after a reset: an address that exists reads as the host's cells do, any other as not listed. -/
theorem read_loadInit (c : Config) (init : List Host.Cell) (a : Nat) :
    Memory.read (loadInit c init) a = if cellExists c a then Memory.read init a else unlistedByte := by
  induction init with
  | nil => simp [loadInit, Memory.read]
  | cons d rest ih =>
    simp only [loadInit, List.foldr_cons] at ih ⊢
    by_cases h : cellExists c d.1
    · rw [if_pos h, read_write, ih]
      by_cases hd : a = d.1
      · subst hd; simp [h, Memory.read]
      · simp [hd, Memory.read, Ne.symm hd]
    · rw [if_neg h, ih]
      by_cases hd : d.1 = a
      · subst hd; simp [h]
      · simp [Memory.read, hd]

theorem loadInit_wf (c : Config) (init : List Host.Cell) : Memory.wf (loadInit c init) = true := by
  induction init with
  | nil => rfl
  | cons d rest ih =>
    simp only [loadInit, List.foldr_cons] at ih ⊢
    split
    · exact write_wf _ _ ih
    · exact ih

theorem loadInit_cells (c : Config) (init : List Host.Cell) :
    ∀ cell ∈ loadInit c init, cellExists c cell.1 = true := by
  induction init with
  | nil => simp [loadInit]
  | cons d rest ih =>
    simp only [loadInit, List.foldr_cons] at ih ⊢
    split
    · next h =>
      intro cell hc
      rcases mem_write hc with rfl | hc
      · exact h
      · exact ih cell hc
    · exact ih

end Sys2Proof.Laws
end

