-- ==== Sys2Proof/Laws/Spans.lean ====
section
/-! SUPPORT. What the loops over spans do to every bit, said once each: copy, swap, reverse, push. -/

namespace Sys2Proof.Laws

open Sys2Proof.Machine

/-- The copy loop at the level of bits (42_field_write_copy.md R111): bit `i` of the destination is bit `i` of the source
as it was, but where the destination starts later in the same buffer the offset counts modulo the distance. -/
theorem bitAt_copySpan (m : Memory) (dst src b' : BufferIndex) (dp sp n q : Nat) :
    bitAt (copySpan m dst dp src sp n) b' q =
      if b' = dst ∧ dp ≤ q ∧ q < dp + n then
        bitAt m src (sp + if dst = src ∧ sp < dp then (q - dp) % (dp - sp) else q - dp)
      else bitAt m b' q := by
  induction n generalizing m dp sp with
  | zero => simp only [copySpan]; rw [if_neg (by omega)]
  | succ n ih =>
    rw [copySpan, ih]
    simp only [bitAt_setBitAt]
    by_cases hb : b' = dst
    · subst hb
      simp only [true_and]
      rcases lt_trichotomy q dp with hq | rfl | hq
      · rw [if_neg (by omega), if_neg (by omega), if_neg (by omega)]
      · rw [if_neg (by omega), if_pos rfl, if_pos (by omega)]; simp
      · by_cases hn : q < dp + 1 + n
        · rw [if_pos (show dp + 1 ≤ q ∧ q < dp + 1 + n from ⟨hq, hn⟩),
            if_pos (show dp ≤ q ∧ q < dp + (n + 1) by omega)]
          by_cases hf : b' = src ∧ sp < dp
          · obtain ⟨rfl, hlt⟩ := hf
            simp only [true_and, hlt, if_true]
            rw [if_pos (show sp + 1 < dp + 1 by omega), Nat.add_sub_add_right]
            generalize hd : dp - sp = d
            obtain ⟨j, rfl⟩ : ∃ j, q = dp + 1 + j := ⟨q - dp - 1, by omega⟩
            rw [show dp + 1 + j - (dp + 1) = j by omega, show dp + 1 + j - dp = j + 1 by omega]
            have hmod := Nat.mod_lt j (show 0 < d by omega)
            by_cases hlast : j % d = d - 1
            · have : (j + 1) % d = 0 := by
                rw [Nat.add_mod, hlast]
                by_cases h1 : d = 1
                · subst h1; omega
                · rw [Nat.mod_eq_of_lt (show 1 < d by omega), show d - 1 + 1 = d by omega, Nat.mod_self]
              rw [if_pos (by omega), this, Nat.add_zero]
            · have : (j + 1) % d = j % d + 1 := by
                rw [Nat.add_mod, Nat.mod_eq_of_lt (show 1 < d by omega), Nat.mod_eq_of_lt (by omega)]
              rw [if_neg (by omega), this]; congr 1; omega
          · rw [if_neg hf, if_neg (show ¬ (b' = src ∧ sp + 1 < dp + 1) from fun h => hf ⟨h.1, by omega⟩),
              if_neg (show ¬ (src = b' ∧ sp + 1 + (q - (dp + 1)) = dp) from fun h => hf ⟨h.1.symm, by omega⟩)]
            congr 1; omega
        · rw [if_neg (by omega), if_neg (by omega), if_neg (by omega)]
    · simp [hb]

theorem copySpan_writes {dst src : BufferIndex} {len dp sp n : Nat} (m : Memory) (h : dp + n ≤ 8 * len) :
    Writes dst len m (copySpan m dst dp src sp n) := by
  induction n generalizing m dp sp with
  | zero => exact .refl m
  | succ n ih => exact (setBitAt_writes m _ (by omega)).trans (ih _ (by omega))

theorem bitAt_swapBits (m : Memory) (b b' : BufferIndex) (i j q : Nat) :
    bitAt (swapBits m b i j) b' q =
      if b' = b ∧ q = j then bitAt m b i else if b' = b ∧ q = i then bitAt m b j else bitAt m b' q := by
  simp only [swapBits, bitAt_setBitAt]

/-- The swap-from-ends loop at the level of bits (43_reverse_push.md R120). -/
theorem bitAt_reverseSpan (m : Memory) (b b' : BufferIndex) (p n q : Nat) :
    bitAt (reverseSpan m b p n) b' q =
      if b' = b ∧ p ≤ q ∧ q < p + n then bitAt m b (p + (p + n - 1 - q)) else bitAt m b' q := by
  induction n using Nat.twoStepInduction generalizing m p with
  | zero => simp only [reverseSpan]; rw [if_neg (by omega)]
  | one =>
    simp only [reverseSpan]
    by_cases h : b' = b ∧ p ≤ q ∧ q < p + 1
    · rw [if_pos h, h.1, show p + (p + 1 - 1 - q) = q by omega]
    · rw [if_neg h]
  | more n ih _ =>
    rw [reverseSpan, ih]
    simp only [bitAt_swapBits]
    by_cases hb : b' = b
    · subst hb
      simp only [true_and]
      by_cases h1 : p + 1 ≤ q ∧ q < p + 1 + n
      · rw [if_pos h1, if_neg (by omega), if_neg (by omega), if_pos (by omega)]; congr 1; omega
      · rw [if_neg h1]
        by_cases h2 : q = p + n + 1
        · rw [if_pos h2, if_pos (by omega)]; congr 1; omega
        · rw [if_neg h2]
          by_cases h3 : q = p
          · rw [if_pos h3, if_pos (by omega)]; congr 1; omega
          · rw [if_neg h3, if_neg (by omega)]
    · simp [hb]

theorem reverseSpan_writes {b : BufferIndex} {len p n : Nat} (m : Memory) (h : p + n ≤ 8 * len) :
    Writes b len m (reverseSpan m b p n) := by
  induction n using Nat.twoStepInduction generalizing m p with
  | zero => exact .refl m
  | one => exact .refl m
  | more n ih _ =>
    exact ((setBitAt_writes m _ (by omega)).trans (setBitAt_writes _ _ (by omega))).trans (ih _ (by omega))

/-- One pushed byte, bit by bit (43_reverse_push.md R121). -/
theorem pushedByte_getLsbD (m : Memory) (b : BufferIndex) (n : Nat) (bit : Bool) (k i : Nat) (hi : i < 8) :
    (pushedByte m b n bit k).getLsbD i =
      if i = 0 then (if k + 1 < n then (readByte m b (k + 1)).getLsbD 7 else bit)
      else (readByte m b k).getLsbD (i - 1) := by
  simp only [pushedByte, BitVec.getLsbD_or, BitVec.getLsbD_shiftLeft]
  by_cases h0 : i = 0
  · subst h0
    split
    · simp
    · cases bit <;> simp
  · have h1 : 1 ≤ i := by omega
    have : (if k + 1 < n then readByte m b (k + 1) >>> 7 else BitVec.ofNat 8 bit.toNat).getLsbD i = false := by
      split
      · rw [BitVec.getLsbD_ushiftRight]; exact BitVec.getLsbD_of_ge _ _ (by omega)
      · cases bit
        · simp
        · simp [h0]
    rw [this]
    simp [h0, hi]

/-- The shift of a whole buffer at the level of bits: each position takes the next one's bit, the last the operand. -/
theorem bitAt_push (m : Memory) (b b' : BufferIndex) (n : Nat) (bit : Bool) (q : Nat) :
    bitAt (fillBytes m b (pushedByte m b n bit) n) b' q =
      if b' = b ∧ q < 8 * n then (if q + 1 < 8 * n then bitAt m b (q + 1) else bit) else bitAt m b' q := by
  simp only [bitAt, readByte_fillBytes]
  by_cases hb : b' = b ∧ q / 8 < n
  · rw [if_pos hb, if_pos ⟨hb.1, by omega⟩, pushedByte_getLsbD _ _ _ _ _ _ (by omega)]
    by_cases h7 : q % 8 = 7
    · rw [if_pos (by omega)]
      by_cases hk : q / 8 + 1 < n
      · rw [if_pos hk, if_pos (by omega), show (q + 1) / 8 = q / 8 + 1 by omega, show 7 - (q + 1) % 8 = 7 by omega]
      · rw [if_neg hk, if_neg (by omega)]
    · rw [if_neg (by omega), if_pos (by omega), show (q + 1) / 8 = q / 8 by omega,
        show 7 - (q + 1) % 8 = 7 - q % 8 - 1 by omega]
  · rw [if_neg hb, if_neg (by rintro ⟨h1, h2⟩; exact hb ⟨h1, by omega⟩)]

end Sys2Proof.Laws
end

