-- ==== Sys2Proof/Laws/State.lean ====
section
/-! SUPPORT. One lemma for each field of each state update, true by rfl; a later proof unfolds no update. -/

namespace Sys2Proof.Laws

open Sys2Proof.Machine

variable (s : State)

@[simp] theorem respond_cfg (st : BitVec 8) (v : ResultWord) : (respond st v s).cfg = s.cfg := rfl
@[simp] theorem respond_mem (st : BitVec 8) (v : ResultWord) : (respond st v s).mem = s.mem := rfl
@[simp] theorem respond_fsr (st : BitVec 8) (v : ResultWord) : (respond st v s).fsr = s.fsr := rfl
@[simp] theorem respond_pending (st : BitVec 8) (v : ResultWord) : (respond st v s).pending = s.pending := rfl
@[simp] theorem respond_rsp (st : BitVec 8) (v : ResultWord) : (respond st v s).rsp = some (responseWord st v) := rfl

@[simp] theorem answerValue_cfg (v : ResultWord) : (answerValue v s).cfg = s.cfg := rfl
@[simp] theorem answerValue_mem (v : ResultWord) : (answerValue v s).mem = s.mem := rfl
@[simp] theorem answerValue_fsr (v : ResultWord) : (answerValue v s).fsr = s.fsr := rfl
@[simp] theorem answerValue_pending (v : ResultWord) : (answerValue v s).pending = s.pending := rfl
@[simp] theorem answerValue_rsp (v : ResultWord) : (answerValue v s).rsp = some (responseWord statusOk v) := rfl

@[simp] theorem answerBool_cfg (v : Bool) : (answerBool v s).cfg = s.cfg := rfl
@[simp] theorem answerBool_mem (v : Bool) : (answerBool v s).mem = s.mem := rfl
@[simp] theorem answerBool_fsr (v : Bool) : (answerBool v s).fsr = s.fsr := rfl
@[simp] theorem answerBool_pending (v : Bool) : (answerBool v s).pending = s.pending := rfl
@[simp] theorem answerBool_rsp (v : Bool) : (answerBool v s).rsp = some (responseWord statusOk (BitVec.ofNat 64 v.toNat)) := rfl

@[simp] theorem answerWrite_cfg (m : Memory) : (answerWrite m s).cfg = s.cfg := rfl
@[simp] theorem answerWrite_mem (m : Memory) : (answerWrite m s).mem = m := rfl
@[simp] theorem answerWrite_fsr (m : Memory) : (answerWrite m s).fsr = s.fsr := rfl
@[simp] theorem answerWrite_pending (m : Memory) : (answerWrite m s).pending = s.pending := rfl
@[simp] theorem answerWrite_rsp (m : Memory) : (answerWrite m s).rsp = some (responseWord statusOk 0) := rfl

@[simp] theorem takeFault_cfg (c : Cause) (op : Byte) : (takeFault c op s).cfg = s.cfg := rfl
@[simp] theorem takeFault_mem (c : Cause) (op : Byte) : (takeFault c op s).mem = s.mem := rfl
@[simp] theorem takeFault_fsr (c : Cause) (op : Byte) : (takeFault c op s).fsr = faultWord c op := rfl
@[simp] theorem takeFault_pending (c : Cause) (op : Byte) : (takeFault c op s).pending = s.pending := rfl
@[simp] theorem takeFault_rsp (c : Cause) (op : Byte) : (takeFault c op s).rsp = some (responseWord (statusOfCause c) 0) := rfl

@[simp] theorem answerHalted_cfg : (answerHalted s).cfg = s.cfg := rfl
@[simp] theorem answerHalted_mem : (answerHalted s).mem = s.mem := rfl
@[simp] theorem answerHalted_fsr : (answerHalted s).fsr = s.fsr := rfl
@[simp] theorem answerHalted_pending : (answerHalted s).pending = s.pending := rfl
@[simp] theorem answerHalted_rsp : (answerHalted s).rsp = some (responseWord statusHalted (s.fsr.setWidth 64)) := rfl

@[simp] theorem resetEvent_cfg (init : List Host.Cell) : (resetEvent init s).cfg = s.cfg := rfl
@[simp] theorem resetEvent_mem (init : List Host.Cell) : (resetEvent init s).mem = loadInit s.cfg init := rfl
@[simp] theorem resetEvent_fsr (init : List Host.Cell) : (resetEvent init s).fsr = 0x0000 := rfl
@[simp] theorem resetEvent_pending (init : List Host.Cell) : (resetEvent init s).pending = s.pending := rfl
@[simp] theorem resetEvent_rsp (init : List Host.Cell) : (resetEvent init s).rsp = none := rfl

@[simp] theorem takeMove_cfg (rest : List HostMove) : (takeMove rest s).cfg = s.cfg := rfl
@[simp] theorem takeMove_mem (rest : List HostMove) : (takeMove rest s).mem = s.mem := rfl
@[simp] theorem takeMove_fsr (rest : List HostMove) : (takeMove rest s).fsr = s.fsr := rfl
@[simp] theorem takeMove_pending (rest : List HostMove) : (takeMove rest s).pending = rest := rfl
@[simp] theorem takeMove_rsp (rest : List HostMove) : (takeMove rest s).rsp = s.rsp := rfl

@[simp] theorem withFetchWord_cfg (nbits w : Nat) : (s.withFetchWord nbits w).cfg = s.cfg := rfl
@[simp] theorem withFetchWord_mem (nbits w : Nat) : (s.withFetchWord nbits w).mem = s.mem := rfl
@[simp] theorem withFetchWord_fsr (nbits w : Nat) : (s.withFetchWord nbits w).fsr = s.fsr := rfl
@[simp] theorem withFetchWord_pending (nbits w : Nat) : (s.withFetchWord nbits w).pending = .command (tableWord nbits w) :: s.pending := rfl
@[simp] theorem withFetchWord_rsp (nbits w : Nat) : (s.withFetchWord nbits w).rsp = s.rsp := rfl

end Sys2Proof.Laws
end

