-- ==== Sys2Proof/Laws/Command.lean ====
section
/-! SUPPORT. What a command and a step can do, said once: every proof about steps cites these and unfolds no meaning. -/

namespace Sys2Proof.Laws

open Sys2Proof.Machine Sys2Proof.Safety

/-! ## The fields of a response word and of `FSR` -/

@[simp] theorem statusField_responseWord (a : BitVec 8) (v : ResultWord) : statusField (responseWord a v) = a := by
  apply BitVec.eq_of_getLsbD_eq
  intro i hi
  simp only [statusField, responseWord, BitVec.getLsbD_extractLsb', BitVec.getLsbD_append, hi, decide_true,
    Bool.true_and]
  rw [if_neg (by omega), Nat.add_sub_cancel_left]

@[simp] theorem resultField_responseWord (a : BitVec 8) (v : ResultWord) : resultField (responseWord a v) = v := by
  apply BitVec.eq_of_getLsbD_eq
  intro i hi
  simp only [resultField, responseWord, BitVec.getLsbD_extractLsb', BitVec.getLsbD_append, hi, decide_true,
    Bool.true_and, Nat.zero_add, if_true]

@[simp] theorem causeField_faultWord (c : Cause) (op : Byte) : causeField (faultWord c op) = causeCode c := by
  revert op; cases c <;> decide +kernel

@[simp] theorem opField_faultWord (c : Cause) (op : Byte) : opField (faultWord c op) = op := by
  revert op; cases c <;> decide +kernel

@[simp] theorem reservedField_faultWord (c : Cause) (op : Byte) : reservedField (faultWord c op) = 0 := by
  revert op; cases c <;> decide +kernel

/-! ## Checks -/

/-- The first fault of a list of checks is the cause of a check that fails. -/
theorem mem_of_firstFault {l : List (Bool × Cause)} {c : Cause} (h : firstFault l = some c) : (true, c) ∈ l := by
  induction l with
  | nil => cases h
  | cons d rest ih =>
    obtain ⟨fails, c'⟩ := d
    simp only [firstFault] at h
    split at h
    · simp_all
    · exact List.mem_cons_of_mem _ (ih h)

/-- No fault where every check passes, and only there. -/
theorem firstFault_eq_none {l : List (Bool × Cause)} : firstFault l = none ↔ ∀ d ∈ l, d.1 = false := by
  induction l with
  | nil => simp [firstFault]
  | cons d rest ih =>
    obtain ⟨fails, c'⟩ := d
    simp only [firstFault]
    split <;> simp_all

/-! ## Commands -/

/-- Everything a command can do: it is answered HALTED, or it takes one of its faults, or it has its effect. -/
theorem issue_cases (o : Opcode) (checks : List (Bool × Cause)) (effect : State → State) (s : State) :
    (halted s = true ∧ issue o checks effect s = .next (answerHalted s)) ∨
    (halted s = false ∧ ∃ c, firstFault checks = some c ∧ issue o checks effect s = .next (takeFault c (opcodeByte o) s)) ∨
    (halted s = false ∧ firstFault checks = none ∧ issue o checks effect s = .next (effect s)) := by
  unfold issue
  cases hh : halted s
  · cases hf : firstFault checks
    · exact .inr (.inr ⟨rfl, rfl, by simp⟩)
    · exact .inr (.inl ⟨rfl, _, rfl, by simp⟩)
  · exact .inl ⟨rfl, by simp⟩

theorem issue_of_halted {o : Opcode} {checks : List (Bool × Cause)} {effect : State → State} {s : State}
    (h : halted s = true) : issue o checks effect s = .next (answerHalted s) := by
  simp [issue, h]

theorem issue_of_fault {o : Opcode} {checks : List (Bool × Cause)} {effect : State → State} {s : State} {c : Cause}
    (h : halted s = false) (hf : firstFault checks = some c) :
    issue o checks effect s = .next (takeFault c (opcodeByte o) s) := by
  simp [issue, h, hf]

theorem issue_of_pass {o : Opcode} {checks : List (Bool × Cause)} {effect : State → State} {s : State}
    (h : halted s = false) (hf : firstFault checks = none) : issue o checks effect s = .next (effect s) := by
  simp [issue, h, hf]

/-- Whatever a command's checks read: the state they are made from and the state the effect acts on are one. -/
theorem firstFault_spanChecks {s : State} {b : BufferIndex} {pos len : Nat} :
    firstFault (spanChecks s b pos len) = none ↔ SpanIn s b pos len := by
  simp [firstFault_eq_none, spanChecks, badBuffer, outOfRange, SpanIn]

theorem firstFault_sizedSpanChecks {s : State} {b : BufferIndex} {pos len maxLen size : Nat} :
    firstFault (sizedSpanChecks s b pos len maxLen size) = none ↔
      SpanIn s b pos len ∧ 1 ≤ size ∧ size ≤ maxLen := by
  simp [firstFault_eq_none, sizedSpanChecks, badBuffer, outOfRange, badLength, SpanIn]
  omega

theorem firstFault_copyChecks {s : State} {dst src : BufferIndex} {dp sp len : Nat} :
    firstFault (copyChecks s dst dp src sp len) = none ↔ SpanIn s dst dp len ∧ SpanIn s src sp len := by
  simp [firstFault_eq_none, copyChecks, badBuffer, outOfRange, SpanIn]
  omega

theorem firstFault_crcChecks {s : State} {b : BufferIndex} {off cnt : Nat} :
    firstFault (crcChecks s b off cnt) = none ↔ BytesIn s b off cnt := by
  simp [firstFault_eq_none, crcChecks, badBuffer, bytesOutOfRange, BytesIn]

theorem firstFault_bufferChecks {s : State} {b : BufferIndex} :
    firstFault (bufferChecks s b) = none ↔ b.toNat < s.cfg.nbuf := by
  simp [firstFault_eq_none, bufferChecks, badBuffer]

/-! ## Each command as its checks and its effect -/

theorem exec_getBit (b : BufferIndex) (pos : Nat) (s : State) :
    exec (.getBit b pos) s =
    issue .getBit (spanChecks s b pos 1) (fun s => answerBool (bitAt s.mem b pos) s) s := rfl

theorem exec_setBit (b : BufferIndex) (pos : Nat) (bit : Bool) (s : State) :
    exec (.setBit b pos bit) s =
    issue .setBit (spanChecks s b pos 1) (fun s => answerWrite (setBitAt s.mem b pos bit) s) s := rfl

theorem exec_getBits8 (b : BufferIndex) (pos len : Nat) (s : State) :
    exec (.getBits8 b pos len) s =
    issue .getBits8 (sizedSpanChecks s b pos len 8 len)
      (fun s => answerValue (BitVec.ofNat 64 (memRead s.mem b pos len)) s) s := rfl

theorem exec_getBits16 (b : BufferIndex) (pos len : Nat) (s : State) :
    exec (.getBits16 b pos len) s =
    issue .getBits16 (sizedSpanChecks s b pos len 16 len)
      (fun s => answerValue (BitVec.ofNat 64 (memRead s.mem b pos len)) s) s := rfl

theorem exec_getBits32 (b : BufferIndex) (pos len : Nat) (s : State) :
    exec (.getBits32 b pos len) s =
    issue .getBits32 (sizedSpanChecks s b pos len 32 len)
      (fun s => answerValue (BitVec.ofNat 64 (memRead s.mem b pos len)) s) s := rfl

theorem exec_getBits64 (b : BufferIndex) (pos len : Nat) (s : State) :
    exec (.getBits64 b pos len) s =
    issue .getBits64 (sizedSpanChecks s b pos len 64 len)
      (fun s => answerValue (BitVec.ofNat 64 (memRead s.mem b pos len)) s) s := rfl

theorem exec_setBits (b : BufferIndex) (pos : Nat) (val : Byte) (len : Nat) (s : State) :
    exec (.setBits b pos val len) s =
    issue .setBits (sizedSpanChecks s b pos len 8 len)
      (fun s => answerWrite (memWrite s.mem b pos len val.toNat) s) s := rfl

theorem exec_copyBits (dst : BufferIndex) (dp : Nat) (src : BufferIndex) (sp len : Nat) (s : State) :
    exec (.copyBits dst dp src sp len) s =
    issue .copyBits (copyChecks s dst dp src sp len)
      (fun s => answerWrite (copySpan s.mem dst dp src sp len) s) s := rfl

theorem exec_reverseBits (b : BufferIndex) (pos len : Nat) (s : State) :
    exec (.reverseBits b pos len) s =
    issue .reverseBits (spanChecks s b pos len) (fun s => answerWrite (reverseSpan s.mem b pos len) s) s := rfl

theorem exec_pushBit (b : BufferIndex) (bit : Bool) (s : State) :
    exec (.pushBit b bit) s =
    issue .pushBit (bufferChecks s b) (fun s => answerWrite
      (fillBytes s.mem b (pushedByte s.mem b (s.cfg.nbytesOf b) bit) (s.cfg.nbytesOf b)) s) s := rfl

theorem exec_testParity32 (value : BitVec 32) (kind : ParityKind) (s : State) :
    exec (.testParity32 value kind) s =
    issue .testParity32 [(badTestKind kind, .badKind)]
      (fun s => answerBool (passes s.cfg value.toNat 32 kind) s) s := rfl

theorem exec_genParity32 (value : BitVec 32) (kind : ParityKind) (s : State) :
    exec (.genParity32 value kind) s =
    issue .genParity32 []
      (fun s => answerValue (BitVec.ofNat 64 (parityBit s.cfg value.toNat kind)) s) s := rfl

theorem exec_checkParity (b : BufferIndex) (pos len : Nat) (kind : ParityKind) (bsz : Nat) (s : State) :
    exec (.checkParity b pos len kind bsz) s =
    issue .checkParity (sizedSpanChecks s b pos len 32 bsz)
      (fun s => answerBool (allBlocksPass s.cfg s.mem b pos bsz kind (len / bsz)) s) s := rfl

theorem exec_crc8 (b : BufferIndex) (off cnt : Nat) (poly init : BitVec 8) (refin refout : Bool) (xorout : BitVec 8) (s : State) :
    exec (.crc8 b off cnt poly init refin refout xorout) s =
    issue .crc8 (crcChecks s b off cnt) (fun s => answerValue
      ((crcValue (bytesAt s.mem b off cnt) poly init refin refout xorout).setWidth 64) s) s := rfl

theorem exec_crc16 (b : BufferIndex) (off cnt : Nat) (poly init : BitVec 16) (refin refout : Bool) (xorout : BitVec 16) (s : State) :
    exec (.crc16 b off cnt poly init refin refout xorout) s =
    issue .crc16 (crcChecks s b off cnt) (fun s => answerValue
      ((crcValue (bytesAt s.mem b off cnt) poly init refin refout xorout).setWidth 64) s) s := rfl

theorem exec_crc8Chk (b : BufferIndex) (off cnt : Nat) (poly init : BitVec 8) (refin refout : Bool)
    (xorout expect : BitVec 8) (s : State) :
    exec (.crc8Chk b off cnt poly init refin refout xorout expect) s =
    issue .crc8Chk (crcChecks s b off cnt) (fun s => answerValue
      (if crcValue (bytesAt s.mem b off cnt) poly init refin refout xorout = expect then 1 else 0) s) s := rfl

theorem exec_crc16Chk (b : BufferIndex) (off cnt : Nat) (poly init : BitVec 16) (refin refout : Bool)
    (xorout expect : BitVec 16) (s : State) :
    exec (.crc16Chk b off cnt poly init refin refout xorout expect) s =
    issue .crc16Chk (crcChecks s b off cnt) (fun s => answerValue
      (if crcValue (bytesAt s.mem b off cnt) poly init refin refout xorout = expect then 1 else 0) s) s := rfl

/-- What a completed command leaves: the response OK, and either nothing written, or `RESULT = 0` and bytes written below
the length of the one buffer it names as its destination. -/
def Completed (i : Instr) (s t : State) : Prop :=
  SameRegisters s t ∧
    ((writtenBuffer i = none ∧ t.mem = s.mem ∧ ∃ v, t.rsp = some (responseWord statusOk v)) ∨
      ∃ b, writtenBuffer i = some b ∧ Writes b (s.cfg.nbytesOf b) s.mem t.mem ∧
        t.rsp = some (responseWord statusOk 0))

theorem completed_value {i : Instr} {s : State} {v : ResultWord} (h : writtenBuffer i = none) :
    Completed i s (answerValue v s) := ⟨⟨rfl, rfl, rfl⟩, .inl ⟨h, rfl, v, rfl⟩⟩

theorem completed_bool {i : Instr} {s : State} {v : Bool} (h : writtenBuffer i = none) :
    Completed i s (answerBool v s) := completed_value h

theorem completed_write {i : Instr} {s : State} {m : Memory} {b : BufferIndex} (h : writtenBuffer i = some b)
    (hm : Writes b (s.cfg.nbytesOf b) s.mem m) : Completed i s (answerWrite m s) :=
  ⟨⟨rfl, rfl, rfl⟩, .inr ⟨b, h, hm, rfl⟩⟩

/-- EVERYTHING A COMMAND CAN DO, for all 17 at once: answered HALTED, a fault, or completed. -/
theorem exec_cases (i : Instr) (s : State) :
    (halted s = true ∧ exec i s = .next (answerHalted s)) ∨
    (halted s = false ∧ ∃ c, exec i s = .next (takeFault c (opcodeByte i.opcode) s)) ∨
    (halted s = false ∧ ∃ t, exec i s = .next t ∧ Completed i s t) := by
  have key : ∀ (o : Opcode) (checks : List (Bool × Cause)) (effect : State → State), o = i.opcode →
      exec i s = issue o checks effect s → (firstFault checks = none → Completed i s (effect s)) →
      ((halted s = true ∧ exec i s = .next (answerHalted s)) ∨
      (halted s = false ∧ ∃ c, exec i s = .next (takeFault c (opcodeByte i.opcode) s)) ∨
      (halted s = false ∧ ∃ t, exec i s = .next t ∧ Completed i s t)) := by
    intro o checks effect ho he hc
    rcases issue_cases o checks effect s with ⟨h, h'⟩ | ⟨h, c, _, h'⟩ | ⟨h, hn, h'⟩
    · exact .inl ⟨h, he.trans h'⟩
    · exact .inr (.inl ⟨h, c, ho ▸ he.trans h'⟩)
    · exact .inr (.inr ⟨h, _, he.trans h', hc hn⟩)
  cases i with
  | getBit b pos => exact key _ _ _ rfl (exec_getBit ..) fun _ => completed_bool rfl
  | setBit b pos bit =>
    refine key _ _ _ rfl (exec_setBit ..) fun h => completed_write rfl (setBitAt_writes _ _ ?_)
    have := (firstFault_spanChecks.1 h).2; simp only [Config.nbits] at this; omega
  | getBits8 b pos len => exact key _ _ _ rfl (exec_getBits8 ..) fun _ => completed_value rfl
  | getBits16 b pos len => exact key _ _ _ rfl (exec_getBits16 ..) fun _ => completed_value rfl
  | getBits32 b pos len => exact key _ _ _ rfl (exec_getBits32 ..) fun _ => completed_value rfl
  | getBits64 b pos len => exact key _ _ _ rfl (exec_getBits64 ..) fun _ => completed_value rfl
  | setBits b pos val len =>
    refine key _ _ _ rfl (exec_setBits ..) fun h => completed_write rfl (memWrite_writes _ _ ?_)
    exact (firstFault_sizedSpanChecks.1 h).1.2
  | copyBits dst dp src sp len =>
    refine key _ _ _ rfl (exec_copyBits ..) fun h => completed_write rfl (copySpan_writes _ ?_)
    exact (firstFault_copyChecks.1 h).1.2
  | reverseBits b pos len =>
    refine key _ _ _ rfl (exec_reverseBits ..) fun h => completed_write rfl (reverseSpan_writes _ ?_)
    exact (firstFault_spanChecks.1 h).2
  | pushBit b bit => exact key _ _ _ rfl (exec_pushBit ..) fun _ => completed_write rfl (fillBytes_writes _ _ (Nat.le_refl _))
  | testParity32 value kind => exact key _ _ _ rfl (exec_testParity32 ..) fun _ => completed_bool rfl
  | genParity32 value kind => exact key _ _ _ rfl (exec_genParity32 ..) fun _ => completed_value rfl
  | checkParity b pos len kind bsz => exact key _ _ _ rfl (exec_checkParity ..) fun _ => completed_bool rfl
  | crc8 b off cnt poly init refin refout xorout => exact key _ _ _ rfl (exec_crc8 ..) fun _ => completed_value rfl
  | crc16 b off cnt poly init refin refout xorout => exact key _ _ _ rfl (exec_crc16 ..) fun _ => completed_value rfl
  | crc8Chk b off cnt poly init refin refout xorout expect => exact key _ _ _ rfl (exec_crc8Chk ..) fun _ => completed_value rfl
  | crc16Chk b off cnt poly init refin refout xorout expect => exact key _ _ _ rfl (exec_crc16Chk ..) fun _ => completed_value rfl

/-! ## Words and steps -/

/-- The opcode byte of the command a word decodes to is the word's. -/
theorem opcodeByte_of_decode {cw : CommandWord} {i : Instr} (h : decode cw = .ok i) :
    opcodeByte i.opcode = opcodeOf cw := by
  unfold decode at h
  split at h
  · cases h
  · next o ho =>
    split at h
    · have hi : i = operandsOf o cw := by injection h with h; exact h.symm
      have : (operandsOf o cw).opcode = o := by cases o <;> rfl
      rw [hi, this]
      simpa using List.find?_some ho
    · cases h

/-- EVERYTHING A COMMAND WORD CAN DO. -/
theorem runWord_cases (cw : CommandWord) (s : State) :
    (halted s = true ∧ runWord cw s = .next (answerHalted s)) ∨
    (halted s = false ∧ ∃ c, runWord cw s = .next (takeFault c (opcodeOf cw) s)) ∨
    (halted s = false ∧ ∃ i t, decode cw = .ok i ∧ runWord cw s = .next t ∧ Completed i s t) := by
  unfold runWord
  cases hd : decode cw with
  | error e =>
    cases hh : halted s
    · exact .inr (.inl ⟨rfl, .illegalCommand, by simp [illegalCommand, hh]⟩)
    · exact .inl ⟨rfl, by simp [illegalCommand, hh]⟩
  | ok i =>
    rw [← opcodeByte_of_decode hd]
    rcases exec_cases i s with h | h | ⟨h, t, ht, hc⟩
    · exact .inl h
    · exact .inr (.inl h)
    · exact .inr (.inr ⟨h, i, t, rfl, ht, hc⟩)

/-- EVERYTHING A STEP CAN DO: no move, a reset, or a command word. -/
theorem step_cases (s : State) :
    (s.pending = [] ∧ step s = .fault .noHostMove) ∨
    (∃ init rest, s.pending = .reset init :: rest ∧ step s = .next (resetEvent init (takeMove rest s))) ∨
    (∃ cw rest, s.pending = .command cw :: rest ∧ step s = runWord cw (takeMove rest s)) := by
  unfold step
  split
  · next h => exact .inl ⟨h, rfl⟩
  · next init rest h => exact .inr (.inl ⟨init, rest, h, rfl⟩)
  · next cw rest h => exact .inr (.inr ⟨cw, rest, h, rfl⟩)

@[simp] theorem halted_takeMove (rest : List HostMove) (s : State) : halted (takeMove rest s) = halted s := rfl

/-- A fault leaves the engine halted. -/
theorem faultedBit_faultWord (c : Cause) (op : Byte) : faultedBit (faultWord c op) = true := by
  cases c <;> simp [faultedBit, faultWord, causeCode]

@[simp] theorem halted_takeFault (c : Cause) (op : Byte) (s : State) : halted (takeFault c op s) = true :=
  faultedBit_faultWord c op

theorem halted_of_completed {i : Instr} {s t : State} (h : Completed i s t) : halted t = halted s := by
  simp only [halted, h.1.2.1]

/-- The model's fault entry and the claim's form of it are one state. -/
theorem takeFault_eq_faulted (c : Cause) (op : Byte) (s : State) :
    takeFault c op s = faulted (causeCode c) op s := by
  cases c <;> rfl

theorem answerValue_eq_returns (v : ResultWord) (s : State) : answerValue v s = returns v s := rfl

end Sys2Proof.Laws
end

