-- ==== Sys2Proof/Laws/Crc.lean ====
section
/-! SUPPORT. The parts of the CRC (45_crc.md R147), said once: a bit and a reflection on numbers, a byte as its bits. -/

namespace Sys2Proof.Laws

open Sys2Proof.Machine Sys2Proof.Safety

/-- One bit of the register on numbers. -/
theorem crcBit_toNat {w : Nat} (poly crc : BitVec w) (b : Bool) :
    (crcBit poly crc b).toNat = crcBitNum w poly.toNat crc.toNat b := by
  have hs : (crc <<< 1).toNat = crc.toNat * 2 % 2 ^ w := by
    rw [BitVec.toNat_shiftLeft, Nat.shiftLeft_eq, pow_one]
  have ht : (crc.getLsbD (w - 1)).toNat = crc.toNat / 2 ^ (w - 1) % 2 := by
    simp only [BitVec.getLsbD, Nat.toNat_testBit]
  unfold crcBit crcBitNum
  simp only [← ht]
  cases crc.getLsbD (w - 1) <;> cases b <;> simp [hs]

/-- The reversal on numbers. -/
theorem reverse_toNat {w : Nat} (v : BitVec w) : v.reverse.toNat = revNum w v.toNat := by
  have bits : ∀ n x : Nat, x % 2 ^ n = ∑ i ∈ Finset.range n, (x.testBit i).toNat * 2 ^ i := by
    intro n x
    induction n with
    | zero => simp [Nat.mod_one]
    | succ n ih => rw [Finset.sum_range_succ, ← ih, Nat.mod_pow_succ, Nat.toNat_testBit]; ring
  unfold revNum
  rw [← Nat.mod_eq_of_lt v.reverse.isLt, bits]
  refine Finset.sum_congr rfl fun i hi => ?_
  rw [Finset.mem_range] at hi
  congr 2
  show v.reverse.getLsbD i = _
  rw [BitVec.getLsbD_reverse, BitVec.getMsbD_eq_getLsbD]
  simp [hi, BitVec.getLsbD]

/-- A byte is its eight bits, most significant first. -/
theorem crcByte_eq_foldl {w : Nat} (poly crc : BitVec w) (d : Byte) :
    crcByte poly crc d = (bitsOfByte d).foldl (crcBit poly) crc := rfl

/-- A zero bit leaves a zero register zero. -/
theorem crcBit_zero {w : Nat} (poly : BitVec w) : crcBit poly 0 false = 0 := by simp [crcBit]

end Sys2Proof.Laws
end

