-- ==== Sys2Proof/Laws/Encoding.lean ====
section
/-! SUPPORT. How a field is read back from an assembled word: the fields are laid out from the top down, a slice below a
field does not see it, and a slice that starts at or above a field's place sees only that field. -/

namespace Sys2Proof.Laws

/-- The fields stand from the top down, each below `top` and each above the next. -/
def Laid : Nat → List (Nat × Nat) → Prop
  | _, [] => True
  | top, (v, lo) :: rest => lo ≤ top ∧ v < 2 ^ (top - lo) ∧ Laid lo rest

/-- A slice of a number, as `slice` takes it of a word. -/
def numSlice (n hi lo : Nat) : Nat := n / 2 ^ lo % 2 ^ (hi - lo + 1)

theorem assemble_lt {top : Nat} {l : List (Nat × Nat)} (h : Laid top l) : assemble l < 2 ^ top := by
  induction l generalizing top with
  | nil => exact Nat.two_pow_pos top
  | cons f rest ih =>
    obtain ⟨v, lo⟩ := f
    obtain ⟨hle, hv, hr⟩ := h
    have h1 := ih hr
    have h2 : 2 ^ top = 2 ^ (top - lo) * 2 ^ lo := by rw [← pow_add]; congr 1; omega
    have h3 : (v + 1) * 2 ^ lo ≤ 2 ^ (top - lo) * 2 ^ lo := Nat.mul_le_mul_right _ hv
    have h4 : (v + 1) * 2 ^ lo = v * 2 ^ lo + 2 ^ lo := by ring
    simp only [assemble]
    omega

/-- A slice below a field does not see it. -/
theorem numSlice_below {v lo hi l : Nat} {rest : List (Nat × Nat)} (h : hi < lo) (hl : l ≤ hi) :
    numSlice (assemble ((v, lo) :: rest)) hi l = numSlice (assemble rest) hi l := by
  have h1 : 2 ^ lo = 2 ^ (hi - l + 1) * 2 ^ (lo - hi - 1) * 2 ^ l := by
    rw [← pow_add, ← pow_add]; congr 1; omega
  have h2 : v * 2 ^ lo + assemble rest = assemble rest + v * (2 ^ (hi - l + 1) * 2 ^ (lo - hi - 1)) * 2 ^ l := by
    rw [h1]; ring
  simp only [numSlice, assemble]
  rw [h2, Nat.add_mul_div_right _ _ (Nat.two_pow_pos l),
    show v * (2 ^ (hi - l + 1) * 2 ^ (lo - hi - 1)) = 2 ^ (hi - l + 1) * (v * 2 ^ (lo - hi - 1)) by ring,
    Nat.add_mul_mod_self_left]

/-- A slice that starts at or above a field's place, with no field above it, sees that field only. -/
theorem numSlice_from {v lo hi l : Nat} {rest : List (Nat × Nat)} (h : lo ≤ l) (hr : Laid lo rest) :
    numSlice (assemble ((v, lo) :: rest)) hi l = numSlice v (hi - lo) (l - lo) := by
  have hlt := assemble_lt hr
  have h1 : 2 ^ l = 2 ^ lo * 2 ^ (l - lo) := by rw [← pow_add]; congr 1; omega
  simp only [numSlice, assemble]
  rw [h1, ← Nat.div_div_eq_div_mul, Nat.add_comm, Nat.add_mul_div_right _ _ (Nat.two_pow_pos lo),
    Nat.div_eq_of_lt hlt, Nat.zero_add, show hi - lo - (l - lo) = hi - l by omega]

theorem numSlice_nil (hi l : Nat) : numSlice (assemble []) hi l = 0 := by simp [numSlice, assemble]

/-- A value that fits its slice reads back whole. -/
theorem numSlice_whole {v hi : Nat} (h : v < 2 ^ (hi + 1)) : numSlice v hi 0 = v := by
  simpa [numSlice] using Nat.mod_eq_of_lt h

/-- A slice above all bits of a value is zero. -/
theorem numSlice_above {v hi l : Nat} (h : v < 2 ^ l) : numSlice v hi l = 0 := by
  simp [numSlice, Nat.div_eq_of_lt h]

/-- A bit vector's slice from its lowest bit to its highest or beyond is its number. -/
theorem numSlice_bitVec_whole {w hi : Nat} (b : BitVec w) (h : w ≤ hi + 1) : numSlice b.toNat hi 0 = b.toNat :=
  numSlice_whole (Nat.lt_of_lt_of_le b.isLt (Nat.pow_le_pow_right (by decide) h))

/-- A slice above a bit vector's highest bit is zero. -/
theorem numSlice_bitVec_above {w hi l : Nat} (b : BitVec w) (h : w ≤ l) : numSlice b.toNat hi l = 0 :=
  numSlice_above (Nat.lt_of_lt_of_le b.isLt (Nat.pow_le_pow_right (by decide) h))

theorem numSlice_bool_whole {hi : Nat} (b : Bool) : numSlice b.toNat hi 0 = b.toNat :=
  numSlice_whole (Nat.lt_of_lt_of_le b.toNat_lt
    (Nat.pow_le_pow_right (n := 2) (i := 1) (by decide) (by omega)))

theorem numSlice_bool_above {hi l : Nat} (b : Bool) (h : 1 ≤ l) : numSlice b.toNat hi l = 0 :=
  numSlice_above (Nat.lt_of_lt_of_le b.toNat_lt (Nat.pow_le_pow_right (n := 2) (i := 1) (by decide) h))

/-- A number that fits a 16-bit field reads back whole. -/
theorem numSlice_fits16 {n : Nat} (h : n < 65536) : numSlice n 15 0 = n := numSlice_whole h

/-- A number that fits the 8-bit field `BSZ` reads back whole, and nothing stands above it. -/
theorem numSlice_fits8 {n : Nat} (h : n < 256) : numSlice n 7 0 = n := numSlice_whole h

theorem numSlice_fits8_above {n hi l : Nat} (h : n < 256) (hl : 8 ≤ l) : numSlice n hi l = 0 :=
  numSlice_above (Nat.lt_of_lt_of_le h (Nat.pow_le_pow_right (n := 2) (i := 8) (by decide) hl))

/-- What stands below the first field of a layout is a layout. -/
theorem Laid.tail {top v lo : Nat} {rest : List (Nat × Nat)} (h : Laid top ((v, lo) :: rest)) : Laid lo rest := h.2.2

/-- All the fields of a command's word, the opcode byte first. -/
def layoutOf (i : Instr) : List (Nat × Nat) := ((opcodeByte i.opcode).toNat, 120) :: fieldsOf i

theorem kindCode_lt (k : ParityKind) : kindCode k < 4 := by cases k <;> decide

theorem numSlice_kind_whole {hi : Nat} (k : ParityKind) (h : 1 ≤ hi) : numSlice (kindCode k) hi 0 = kindCode k :=
  numSlice_whole (Nat.lt_of_lt_of_le (kindCode_lt k)
    (Nat.pow_le_pow_right (n := 2) (i := 2) (by decide) (by omega)))

theorem numSlice_kind_above {hi l : Nat} (k : ParityKind) (h : 2 ≤ l) : numSlice (kindCode k) hi l = 0 :=
  numSlice_above (Nat.lt_of_lt_of_le (kindCode_lt k) (Nat.pow_le_pow_right (n := 2) (i := 2) (by decide) h))

theorem kindOfCode_kindCode (k : ParityKind) : kindOfCode (kindCode k) = k := by cases k <;> rfl

theorem opcodeOfByte_opcodeByte (o : Opcode) : opcodeOfByte (opcodeByte o) = some o := by cases o <;> decide

/-- A word with a command's opcode byte and zeros in its must-be-zero ranges decodes to that command. -/
theorem decode_of_opcode {cw : CommandWord} {o : Opcode} (h : opcodeOf cw = opcodeByte o)
    (hz : reservedZero o cw = true) : decode cw = .ok (operandsOf o cw) := by
  unfold decode
  rw [h, opcodeOfByte_opcodeByte]
  simp only [hz, if_true]

/-- The operand fields of a well-formed command lie below the opcode byte and do not overlap. -/
theorem fieldsOf_laid (i : Instr) (h : i.wellFormed = true) : Laid 120 (fieldsOf i) := by
  have hk := kindCode_lt
  have h4 : ∀ b : BitVec 4, b.toNat < 16 := fun b => b.isLt
  have h8 : ∀ b : BitVec 8, b.toNat < 256 := fun b => b.isLt
  have h16 : ∀ b : BitVec 16, b.toNat < 65536 := fun b => b.isLt
  have h32 : ∀ b : BitVec 32, b.toNat < 4294967296 := fun b => b.isLt
  have h1 : ∀ b : Bool, b.toNat < 2 := Bool.toNat_lt
  have up : ∀ {n m k : Nat}, n < m → m ≤ k → n < k := fun h h' => Nat.lt_of_lt_of_le h h'
  cases i <;> simp only [Instr.wellFormed, fits16, fits8, Bool.and_eq_true, decide_eq_true_eq] at h <;>
    simp only [fieldsOf, Laid, Nat.reduceSub, Nat.reducePow, Nat.reduceLeDiff, true_and, and_true] <;>
    (repeat' apply And.intro) <;>
    first
      | exact up (h4 _) (by decide)
      | exact up (h1 _) (by decide)
      | exact up (hk _) (by decide)
      | exact up (h8 _) (by decide)
      | exact up (h16 _) (by decide)
      | exact up (h32 _) (by decide)
      | omega

/-- The layout of a well-formed command's word. -/
theorem layoutOf_laid (i : Instr) (h : i.wellFormed = true) : Laid 128 (layoutOf i) :=
  ⟨by decide, by have := (opcodeByte i.opcode).isLt; simpa using this, fieldsOf_laid i h⟩

/-- A slice of an encoded word is a slice of its layout. -/
theorem slice_encode (i : Instr) (h : i.wellFormed = true) (hi lo : Nat) :
    slice (encode i) hi lo = numSlice (assemble (layoutOf i)) hi lo := by
  have := assemble_lt (layoutOf_laid i h)
  simp only [slice, encode, numSlice, layoutOf, BitVec.toNat_ofNat] at this ⊢
  rw [Nat.mod_eq_of_lt this]

end Sys2Proof.Laws
end

