-- ==== Sys2Proof/Laws/Parity.lean ====
section
/-! SUPPORT. Counting the ones of a number, said once: as a set, of a number with one bit appended, of a small number. -/

namespace Sys2Proof.Laws

open Sys2Proof.Machine

/-- The count is the size of the set of the positions that hold a one. -/
theorem popcount_eq_card (v w : Nat) : popcount v w = ((Finset.range w).filter fun i => v.testBit i = true).card := by
  induction w with
  | zero => rfl
  | succ w ih =>
    rw [popcount, ih, Finset.range_add_one, Finset.filter_insert]
    cases h : v.testBit w <;> simp

/-- One bit appended at the low end counts for itself. -/
theorem popcount_append (n p w : Nat) (hp : p < 2) : popcount (2 * n + p) (w + 1) = popcount n w + p := by
  induction w with
  | zero =>
    simp only [popcount]
    rw [Nat.testBit_zero]
    interval_cases p <;> simp
  | succ w ih =>
    rw [popcount, ih, popcount, Nat.testBit_succ, show (2 * n + p) / 2 = n by omega]
    omega

/-- No ones above the bits of a number. -/
theorem popcount_of_lt {v n w : Nat} (h : v < 2 ^ n) (hw : n ≤ w) : popcount v w = popcount v n := by
  induction w with
  | zero => rw [Nat.le_zero.1 hw]
  | succ w ih =>
    rcases Nat.lt_or_ge w n with h' | h'
    · rw [show n = w + 1 by omega]
    · rw [popcount, ih h', Nat.testBit_lt_two_pow (Nat.lt_of_lt_of_le h (Nat.pow_le_pow_right (by decide) h'))]
      rfl

/-- A field read to its last bit is the shorter field with that bit appended. -/
theorem memRead_append (m : Memory) (b : BufferIndex) (p n : Nat) :
    memRead m b p (n + 1) = 2 * memRead m b p n + (bitAt m b (p + n)).toNat := by
  induction n generalizing p with
  | zero => simp [memRead]
  | succ n ih => rw [memRead, ih, memRead, show p + 1 + n = p + (n + 1) by omega]; ring

/-- The passing residues are bits. -/
theorem passEven_lt (c : Config) : passEven c < 2 := Bool.toNat_lt _

theorem passOdd_lt (c : Config) : passOdd c < 2 := by unfold passOdd; omega

end Sys2Proof.Laws
end

