-- ==== Sys2Proof/Laws/PerInstr.lean ====
section
/-! SUPPORT. The family `OpcodeField`: one lemma for each command, about the command as syntax. -/

namespace Sys2Proof.Laws

/-- The word of a well-formed command carries the command's opcode byte in `CW[127:120]` (30_encoding.md R61, R66). -/
def OpcodeField.Statement (i : Instr) : Prop := i.wellFormed = true → opcodeOf (encode i) = opcodeByte i.opcode

/-- The opcode byte stands above every other field of the layout. -/
theorem opcodeOf_encode (i : Instr) (h : i.wellFormed = true) : opcodeOf (encode i) = opcodeByte i.opcode := by
  rw [opcodeOf, slice_encode i h, layoutOf, numSlice_from (Nat.le_refl _) (layoutOf_laid i h).tail, Nat.sub_self,
    numSlice_bitVec_whole _ (by decide), BitVec.ofNat_toNat, BitVec.setWidth_eq]

theorem OpcodeField.getBit (b : BufferIndex) (pos : Nat) :
    OpcodeField.Statement (.getBit b pos) := opcodeOf_encode _

theorem OpcodeField.setBit (b : BufferIndex) (pos : Nat) (bit : Bool) :
    OpcodeField.Statement (.setBit b pos bit) := opcodeOf_encode _

theorem OpcodeField.getBits8 (b : BufferIndex) (pos : Nat) (len : Nat) :
    OpcodeField.Statement (.getBits8 b pos len) := opcodeOf_encode _

theorem OpcodeField.getBits16 (b : BufferIndex) (pos : Nat) (len : Nat) :
    OpcodeField.Statement (.getBits16 b pos len) := opcodeOf_encode _

theorem OpcodeField.getBits32 (b : BufferIndex) (pos : Nat) (len : Nat) :
    OpcodeField.Statement (.getBits32 b pos len) := opcodeOf_encode _

theorem OpcodeField.getBits64 (b : BufferIndex) (pos : Nat) (len : Nat) :
    OpcodeField.Statement (.getBits64 b pos len) := opcodeOf_encode _

theorem OpcodeField.setBits (b : BufferIndex) (pos : Nat) (val : Byte) (len : Nat) :
    OpcodeField.Statement (.setBits b pos val len) := opcodeOf_encode _

theorem OpcodeField.copyBits (dst : BufferIndex) (dstPos : Nat) (src : BufferIndex) (srcPos : Nat) (len : Nat) :
    OpcodeField.Statement (.copyBits dst dstPos src srcPos len) := opcodeOf_encode _

theorem OpcodeField.reverseBits (b : BufferIndex) (pos : Nat) (len : Nat) :
    OpcodeField.Statement (.reverseBits b pos len) := opcodeOf_encode _

theorem OpcodeField.pushBit (b : BufferIndex) (bit : Bool) :
    OpcodeField.Statement (.pushBit b bit) := opcodeOf_encode _

theorem OpcodeField.testParity32 (value : BitVec 32) (kind : ParityKind) :
    OpcodeField.Statement (.testParity32 value kind) := opcodeOf_encode _

theorem OpcodeField.genParity32 (value : BitVec 32) (kind : ParityKind) :
    OpcodeField.Statement (.genParity32 value kind) := opcodeOf_encode _

theorem OpcodeField.checkParity (b : BufferIndex) (pos : Nat) (len : Nat) (kind : ParityKind) (bsz : Nat) :
    OpcodeField.Statement (.checkParity b pos len kind bsz) := opcodeOf_encode _

theorem OpcodeField.crc8 (b : BufferIndex) (off : Nat) (cnt : Nat) (poly : BitVec 8) (init : BitVec 8)
    (refin : Bool) (refout : Bool) (xorout : BitVec 8) :
    OpcodeField.Statement (.crc8 b off cnt poly init refin refout xorout) := opcodeOf_encode _

theorem OpcodeField.crc16 (b : BufferIndex) (off : Nat) (cnt : Nat) (poly : BitVec 16) (init : BitVec 16)
    (refin : Bool) (refout : Bool) (xorout : BitVec 16) :
    OpcodeField.Statement (.crc16 b off cnt poly init refin refout xorout) := opcodeOf_encode _

theorem OpcodeField.crc8Chk (b : BufferIndex) (off : Nat) (cnt : Nat) (poly : BitVec 8) (init : BitVec 8)
    (refin : Bool) (refout : Bool) (xorout : BitVec 8) (expect : BitVec 8) :
    OpcodeField.Statement (.crc8Chk b off cnt poly init refin refout xorout expect) := opcodeOf_encode _

theorem OpcodeField.crc16Chk (b : BufferIndex) (off : Nat) (cnt : Nat) (poly : BitVec 16) (init : BitVec 16)
    (refin : Bool) (refout : Bool) (xorout : BitVec 16) (expect : BitVec 16) :
    OpcodeField.Statement (.crc16Chk b off cnt poly init refin refout xorout expect) := opcodeOf_encode _

end Sys2Proof.Laws
end

