-- ==== Sys2Proof/Tests/Slice0.lean ====
section
/-! SUPPORT. Tests. The words and the expected results come from spec/95_test_vectors.md and spec/96_derived_vectors.md,
or were assembled by hand from the field tables of 30_encoding.md where a comment says so. The theorems that begin
`witness_` meet all hypotheses of the statement they are named after. -/

namespace Sys2Proof.Tests

-- One theorem at a time: each kernel evaluation in parallel would reserve a thread stack of its own.
set_option Elab.async false

open Sys2Proof.Machine Sys2Proof.Safety Sys2Proof.Laws

/-! ## Helpers -/

/-- The cells of a buffer whose bytes from index 0 are listed. -/
def cellsOf (b : BufferIndex) (bytes : List Nat) : List Host.Cell :=
  bytes.mapIdx fun k v => (cellAddr b k, BitVec.ofNat 8 v)

/-- Two buffers with the bytes listed, right after a reset that hands them over. -/
def engine (b0 b1 : List Nat) (even : Bool := false) : State :=
  powerOn { nbytes := [b0.length, b1.length], evenPassParity := even } (cellsOf 0 b0 ++ cellsOf 1 b1)

/-- Buffer 0 of the spec's reference state (95_test_vectors.md, Notation). -/
def ramp : List Nat :=
  [0x00, 0x11, 0x22, 0x33, 0x44, 0x55, 0x66, 0x77, 0x88, 0x99, 0xAA, 0xBB, 0xCC, 0xDD, 0xEE, 0xFF]

/-- The spec's reference state; buffer 1 is zero. -/
def start : State := engine ramp (List.replicate 16 0)

/-- Buffer 0 holds "123456789". -/
def digits : State := engine [0x31, 0x32, 0x33, 0x34, 0x35, 0x36, 0x37, 0x38, 0x39, 0, 0, 0, 0, 0, 0, 0] ramp

/-- Four bytes of parity blocks (44_parity.md R133, example). -/
def blocks (even : Bool) : State := engine [0xB9, 0x7E, 0x00, 0xFF] [0] even

/-- The next state of an outcome; `State.reset` where there is none. -/
def after : Host.Outcome State Fault Refusal → State
  | .next t => t
  | .fault _ => State.reset
  | .refused _ => State.reset

/-- The outcome is a next state. -/
def isNext : Host.Outcome State Fault Refusal → Bool
  | .next _ => true
  | .fault _ => false
  | .refused _ => false

theorem eq_next {o : Host.Outcome State Fault Refusal} (h : isNext o = true) : o = .next (after o) := by
  cases o with
  | next t => rfl
  | fault r => cases h
  | refused r => cases h

/-- The state after the step that runs the word. -/
def run (s : State) (w : Nat) : State := after (step (s.withFetchWord 128 w))

/-- `STATUS`, `RESULT` and `FSR` after the word. -/
def answer (s : State) (w : Nat) : Option (Nat × Nat) × Nat :=
  ((run s w).rsp.map fun r => ((statusField r).toNat, (resultField r).toNat), (run s w).fsr.toNat)

/-- The first `n` bytes of a buffer. -/
def bytesFrom (s : State) (b : BufferIndex) (n : Nat) : List Nat := (bytesAt s.mem b 0 n).map BitVec.toNat

/-! ## WellFormed: one ill-formed command for each check, refused; and the limits accepted -/

theorem test_ill_formed_refused :
    ([.getBit 0 65536,
      .setBit 0 65536 true,
      .getBits8 0 65536 1,
      .getBits8 0 0 65536,
      .getBits16 0 65536 1,
      .getBits16 0 0 65536,
      .getBits32 0 65536 1,
      .getBits32 0 0 65536,
      .getBits64 0 65536 1,
      .getBits64 0 0 65536,
      .setBits 0 65536 0 1,
      .setBits 0 0 0 65536,
      .copyBits 0 65536 0 0 1,
      .copyBits 0 0 0 65536 1,
      .copyBits 0 0 0 0 65536,
      .reverseBits 0 65536 1,
      .reverseBits 0 0 65536,
      .checkParity 0 65536 0 .even 1,
      .checkParity 0 0 65536 .even 1,
      .checkParity 0 0 0 .even 256,
      .crc8 0 65536 0 0 0 false false 0,
      .crc8 0 0 65536 0 0 false false 0,
      .crc16 0 65536 0 0 0 false false 0,
      .crc16 0 0 65536 0 0 false false 0,
      .crc8Chk 0 65536 0 0 0 false false 0 0,
      .crc8Chk 0 0 65536 0 0 false false 0 0,
      .crc16Chk 0 65536 0 0 0 false false 0 0,
      .crc16Chk 0 0 65536 0 0 false false 0 0] : List Instr).all (fun i => !i.wellFormed) = true := by
  decide

theorem test_limits_well_formed :
    ([.getBit 15 65535, .copyBits 15 65535 15 65535 65535, .checkParity 15 65535 65535 .always1 255,
      .crc16Chk 15 65535 65535 0xFFFF 0xFFFF true true 0xFFFF 0xFFFF] : List Instr).all (fun i => i.wellFormed) = true := by
  decide

/-! ## Decode: for every command a word written out field by field -/

/-- 96, section 2.1. -/
theorem test_decode_getBit : decode 0x0100000B000000000000000000000000#128 = .ok (.getBit 0 11) := by decide +kernel

/-- 95, program P2. -/
theorem test_decode_setBit : decode 0x02010009000000000000000000000001#128 = .ok (.setBit 1 9 true) := by decide +kernel

/-- 95, program P1. -/
theorem test_decode_getBits8 : decode 0x03000034000400000000000000000000#128 = .ok (.getBits8 0 52 4) := by decide +kernel

/-- 95, program P1. -/
theorem test_decode_getBits16 : decode 0x04000034000900000000000000000000#128 = .ok (.getBits16 0 52 9) := by decide +kernel

/-- 95, program P1. -/
theorem test_decode_getBits32 : decode 0x05000014002000000000000000000000#128 = .ok (.getBits32 0 20 32) := by decide +kernel

/-- 96, section 2.2. -/
theorem test_decode_getBits64 : decode 0x06000009003800000000000000000000#128 = .ok (.getBits64 0 9 56) := by decide +kernel

/-- 96, section 2.3. -/
theorem test_decode_setBits : decode 0x0700000C0008000000000000000000AB#128 = .ok (.setBits 0 12 0xAB 8) := by decide +kernel

/-- by hand: BUFB = 5, BUFA = 2, POS, LEN, POSB all different (R62). -/
theorem test_decode_copyBits : decode 0x085212340056789A0000000000000000#128 = .ok (.copyBits 2 0x1234 5 0x789A 0x56) := by decide +kernel

/-- 43_reverse_push.md R120, example. -/
theorem test_decode_reverseBits : decode 0x0900000C000900000000000000000000#128 = .ok (.reverseBits 0 12 9) := by decide +kernel

/-- by hand (R62). -/
theorem test_decode_pushBit : decode 0x0A070000000000000000000000000001#128 = .ok (.pushBit 7 true) := by decide +kernel

/-- 96, section 2.7. -/
theorem test_decode_testParity32 : decode 0x0B000000000000000000000112345678#128 = .ok (.testParity32 0x12345678 .odd) := by decide +kernel

/-- by hand (R63). -/
theorem test_decode_genParity32 : decode 0x0C000000000000000000000389ABCDEF#128 = .ok (.genParity32 0x89ABCDEF .always1) := by decide +kernel

/-- by hand (R62). -/
theorem test_decode_checkParity : decode 0x0D010006000F00000000000200000005#128 = .ok (.checkParity 1 6 15 .always0 5) := by decide +kernel

/-- by hand: every field different (R65). -/
theorem test_decode_crc8 : decode 0x0E0301020304000200AB00CD00EF0000#128 = .ok (.crc8 3 0x102 0x304 0xAB 0xCD true false 0xEF) := by decide +kernel

/-- by hand: every field different (R65). -/
theorem test_decode_crc16 : decode 0x0F03010203040001ABCDEF0123450000#128 = .ok (.crc16 3 0x102 0x304 0xABCD 0xEF01 false true 0x2345) := by decide +kernel

/-- by hand (R65). -/
theorem test_decode_crc8Chk : decode 0x100301020304000100AB00CD00EF0012#128 = .ok (.crc8Chk 3 0x102 0x304 0xAB 0xCD false true 0xEF 0x12) := by decide +kernel

/-- 95, section CRC vectors. -/
theorem test_decode_crc16Chk : decode 0x11000000000900031021FFFFFFFF906E#128 = .ok (.crc16Chk 0 0 9 0x1021 0xFFFF true true 0xFFFF 0x906E) := by decide +kernel

/-- The word of a command with every field at its place encodes back (by hand, R62, R65). -/
theorem test_encode_words :
    encode (.copyBits 2 0x1234 5 0x789A 0x56) = 0x085212340056789A0000000000000000#128 ∧
    encode (.crc8Chk 3 0x102 0x304 0xAB 0xCD false true 0xEF 0x12) = 0x100301020304000100AB00CD00EF0012#128 ∧
    encode (.checkParity 1 6 15 .always0 5) = 0x0D010006000F00000000000200000005#128 := by decide +kernel

/-- R68: the all-zero word, the first and the last reserved opcode. -/
theorem test_reserved_opcodes :
    decode 0#128 = .error .reservedOpcode ∧
    decode 0x12000000000000000000000000000000#128 = .error .reservedOpcode ∧
    decode 0xFF000000000000000000000000000000#128 = .error .reservedOpcode := by decide +kernel

/-- R69 (96, section 2.9): an EXPECT that does not fit 8 bits; and one bit at either end of a range. -/
theorem test_must_be_zero_words :
    decode 0x100000000009000000070000000001F4#128 = .error .mustBeZero ∧
    decode 0x01100000000000000000000000000000#128 = .error .mustBeZero ∧
    decode 0x01000000000000000000000000000001#128 = .error .mustBeZero := by decide +kernel

/-- The must-be-zero ranges are the masks of spec/opcode_table.json without their opcode byte, row by row. -/
theorem test_masks :
    (allOpcodes.map fun o => ((mustBeZero o).map fun r => 2 ^ (r.1 + 1) - 2 ^ r.2).sum) =
      [0xF00000FFFFFFFFFFFFFFFFFFFFFFFF,
       0xF00000FFFFFFFFFFFFFFFFFFFFFFFE,
       0xF000000000FFFFFFFFFFFFFFFFFFFF,
       0xF000000000FFFFFFFFFFFFFFFFFFFF,
       0xF000000000FFFFFFFFFFFFFFFFFFFF,
       0xF000000000FFFFFFFFFFFFFFFFFFFF,
       0xF000000000FFFFFFFFFFFFFFFFFF00,
       0x00000000000000FFFFFFFFFFFFFFFF,
       0xF000000000FFFFFFFFFFFFFFFFFFFF,
       0xF0FFFFFFFFFFFFFFFFFFFFFFFFFFFE,
       0xFFFFFFFFFFFFFFFFFFFFFC00000000,
       0xFFFFFFFFFFFFFFFFFFFFFC00000000,
       0xF000000000FFFFFFFFFFFCFFFFFF00,
       0xF000000000FFFCFF00FF00FF00FFFF,
       0xF000000000FFFC000000000000FFFF,
       0xF000000000FFFCFF00FF00FF00FF00,
       0xF000000000FFFC0000000000000000] := by decide +kernel

/-- The opcode numbers are the first bytes of the match words of spec/opcode_table.json, row by row. -/
theorem test_opcode_bytes : (allOpcodes.map fun o => (opcodeByte o).toNat) = (List.range 17).map (· + 1) := by decide

/-- The host's way in: the first step after reset runs the word. -/
theorem test_first_step : decodeTableWord 128 0x0A000000000000000000000000000001 = some (.pushBit 0 true) ∧
    answer State.reset 0x0A000000000000000000000000000001 = (some (0, 0), 0) ∧
    bytesFrom (run State.reset 0x0A000000000000000000000000000001) 0 16 = List.replicate 15 0 ++ [1] := by decide +kernel

/-! ## One command, one step -/

/-- 96, section 2.1: `GET_BIT 0, 11` and `GET_BIT 0, 127`. -/
theorem test_getBit : answer start 0x0100000B000000000000000000000000 = (some (0, 1), 0) ∧
    answer start 0x0100007F000000000000000000000000 = (some (0, 1), 0) := by decide +kernel

/-- 40_bit_access.md R90: `pos = NBITS(b)` faults. -/
theorem test_getBit_past_end : answer start 0x01000080000000000000000000000000 = (some (5, 0), 0x8501) := by decide +kernel

/-- 96, section 2.1: `SET_BIT 0, 15, 0`. -/
theorem test_setBit : bytesFrom (run start 0x0200000F000000000000000000000000) 0 3 = [0x00, 0x10, 0x22] := by decide +kernel

/-- 96, section 2.1: `SET_BIT 0, 0, 1`. -/
theorem test_setBit_first : bytesFrom (run start 0x02000000000000000000000000000001) 0 3 = [0x80, 0x11, 0x22] := by decide +kernel

/-- 41_field_read.md R101, example; 95: `LEN = 0`. -/
theorem test_getBits8 : answer start 0x0300000C000800000000000000000000 = (some (0, 0x12), 0) ∧
    answer start 0x03000000000000000000000000000000 = (some (4, 0), 0x8403) := by decide +kernel

/-- 95: the last legal span and the first illegal one. -/
theorem test_getBits8_last_span : answer start 0x03000078000800000000000000000000 = (some (0, 0xFF), 0) ∧
    answer start 0x03000079000800000000000000000000 = (some (5, 0), 0x8503) := by decide +kernel

/-- 41_field_read.md R102, example. -/
theorem test_getBits16 : answer start 0x04000034000900000000000000000000 = (some (0, 0xCE), 0) := by decide +kernel

/-- 41_field_read.md R103, example. -/
theorem test_getBits32 : answer start 0x05000014002000000000000000000000 = (some (0, 0x23344556), 0) := by decide +kernel

/-- 41_field_read.md R104, example; 96: `GET_BITS64 0, 9, 56`. -/
theorem test_getBits64 : answer start 0x06000004004000000000000000000000 = (some (0, 0x0112233445566778), 0) ∧
    answer start 0x06000009003800000000000000000000 = (some (0, 0x0022446688AACCEF), 0) := by decide +kernel

/-- 42_field_write_copy.md R110, example. -/
theorem test_setBits : bytesFrom (run start 0x0700000C0008000000000000000000AB) 0 4 = [0x00, 0x1A, 0xB2, 0x33] := by decide +kernel

/-- 96, section 2.3: `SET_BITS 0, 6, 0xFD, 3` as `SET_BITS 0, 6, 0x05, 3`. -/
theorem test_setBits_ignores_high_bits : bytesFrom (run start 0x070000060003000000000000000000FD) 0 3 = [0x02, 0x91, 0x22] := by decide +kernel

/-- 42_field_write_copy.md R111, example. -/
theorem test_copyBits : bytesFrom (run start 0x080100030010000C0000000000000000) 1 4 = [0x02, 0x44, 0x60, 0x00] := by decide +kernel

/-- 42_field_write_copy.md R111, overlap example. -/
theorem test_copyBits_overlap : bytesFrom (run (engine [0xA5, 0x3C, 0x00, 0x00] [0]) 0x08000004000C00000000000000000000) 0 4 = [0xAA, 0xAA, 0x00, 0x00] := by decide +kernel

/-- 43_reverse_push.md R120, example. -/
theorem test_reverseBits : bytesFrom (run start 0x0900000C000900000000000000000000) 0 4 = [0x00, 0x12, 0x42, 0x33] := by decide +kernel

/-- 43_reverse_push.md R121, example. -/
theorem test_pushBit : bytesFrom (run (engine [0x80, 0x01, 0xFF] [0]) 0x0A000000000000000000000000000001) 0 3 = [0x00, 0x03, 0xFF] := by decide +kernel

/-- 44_parity.md R131, example, for both values of the parameter. -/
theorem test_testParity32 : answer (blocks false) 0x0B000000000000000000000012345678 = (some (0, 0), 0) ∧
    answer (blocks true) 0x0B000000000000000000000012345678 = (some (0, 1), 0) := by decide +kernel

/-- 60_exceptions.md R168. -/
theorem test_testParity32_bad_kind : answer start 0x0B000000000000000000000212345678 = (some (3, 0), 0x830B) := by decide +kernel

/-- 44_parity.md R132, example, for both values of the parameter. -/
theorem test_genParity32 : answer (blocks false) 0x0C00000000000000000000000000000B = (some (0, 1), 0) ∧
    answer (blocks true) 0x0C00000000000000000000000000000B = (some (0, 0), 0) := by decide +kernel

/-- 44_parity.md R133, example. -/
theorem test_checkParity : answer (blocks false) 0x0D000000000A00000000000000000005 = (some (0, 1), 0) ∧
    answer (blocks false) 0x0D000000000F00000000000000000005 = (some (0, 0), 0) := by decide +kernel

/-- 44_parity.md R133, example with ALWAYS1. -/
theorem test_checkParity_marker : answer (blocks false) 0x0D000000000F00000000000300000005 = (some (0, 1), 0) := by decide +kernel

/-- 45_crc.md R148, example. -/
theorem test_crc8 : answer digits 0x0E000000000900000007000000000000 = (some (0, 0xF4), 0) := by decide +kernel

/-- 96, section 2.9: reflect-in only and reflect-out only. -/
theorem test_crc8_reflections : answer digits 0x0E000000000900020031000000000000 = (some (0, 0x85), 0) ∧
    answer digits 0x0E000000000900010031000000000000 = (some (0, 0x45), 0) := by decide +kernel

/-- 45_crc.md R152: the document's vector, corrected. -/
theorem test_crc16 : answer digits 0x0F000000000900031021FFFFFFFF0000 = (some (0, 0x906E), 0) ∧
    answer digits 0x0F000000000900031021FFFF00000000 = (some (0, 0x6F91), 0) := by decide +kernel

/-- 96, section 2.9: `XOROUT = 0x00FF`, no palindrome, so the order of R147 shows. -/
theorem test_crc16_xorout_after_reflection : answer digits 0x0F000000000900031021FFFF00FF0000 = (some (0, 0x6F6E), 0) := by decide +kernel

/-- 45_crc.md R150, example. -/
theorem test_crc8Chk : answer digits 0x100000000009000000070000000000F4 = (some (0, 1), 0) ∧
    answer digits 0x100000000009000000070000000000F5 = (some (0, 0), 0) := by decide +kernel

/-- 45_crc.md R151, example. -/
theorem test_crc16Chk : answer digits 0x11000000000900031021FFFFFFFF906E = (some (0, 1), 0) ∧
    answer digits 0x11000000000900031021FFFFFFFF6F91 = (some (0, 0), 0) := by decide +kernel

/-- 96, section 2.10: one word with fewer and fewer faults, in the order of R177. -/
theorem test_fault_priority : answer start 0x031501F4000000000000000000000000 = (some (1, 0), 0x8103) ∧
    answer start 0x030501F4000000000000000000000000 = (some (2, 0), 0x8203) ∧
    answer start 0x030001F4000000000000000000000000 = (some (4, 0), 0x8403) ∧
    answer start 0x030001F4000800000000000000000000 = (some (5, 0), 0x8503) := by decide +kernel

/-- 96, section 2.10: `FSR.OP` is the opcode byte whatever it is. -/
theorem test_reserved_opcode_is_recorded : answer start 0xFF000000000000000000000000000000 = (some (1, 0), 0x81FF) := by decide +kernel

/-- 96, section 2.10, halted sequence: a fault, then any word is answered HALTED. -/
theorem test_halted : answer (run start 0x0300007C000800000000000000000000) 0x01000000000000000000000000000000 =
      (some (15, 0x8503), 0x8503) ∧
    answer (run start 0x0300007C000800000000000000000000) 0 = (some (15, 0x8503), 0x8503) := by decide +kernel

/-- 70_reset_and_hazards.md R190: a reset leaves the halted state with the contents handed over. -/
theorem test_reset_move :
    let t := after (step { run start 0 with pending := [.reset (cellsOf 1 [0x12, 0x34])] })
    halted (run start 0) = true ∧ t.fsr = 0 ∧ t.rsp = none ∧ bytesFrom t 1 3 = [0x12, 0x34, 0x00] ∧
      bytesFrom t 0 2 = [0x00, 0x00] := by decide +kernel

/-- 42_field_write_copy.md R112, hand calculation: a field of 19 bits at position 13, in chunks of 8, 8 and 3 bits. -/
theorem test_setf :
    expandPseudo (.setf 0 13 0x5A5A5 19) = [.setBits 0 13 0xB4 8, .setBits 0 21 0xB4 8, .setBits 0 29 5 3] ∧
    bytesFrom (after (execAll (expandPseudo (.setf 0 13 0x5A5A5 19)) start)) 0 5 = [0x00, 0x15, 0xA5, 0xA5, 0x44] := by
  decide +kernel

/-- 30_encoding.md R74, in the order of the document's signature. -/
theorem test_written_form :
    writtenForm (.copyBits 1 3 0 12 16) = "COPY_BITS 1, 3, 0, 12, 16" ∧
    writtenForm (.checkParity 0 0 10 .even 5) = "CHECK_PARITY 0, 0, 10, EVEN, 5" := by decide +kernel

/-! ## Witnesses: for each statement with hypotheses, a state and operands that meet them all -/

/-- `start` with the word as the host's next move. -/
def shown (cw : CommandWord) : State := { start with pending := [.command cw] }

/-- A halted state with the word as the host's next move. -/
def shownHalted (cw : CommandWord) : State := { run start 0 with pending := [.command cw] }

theorem witness_DecodeOfEncodeIsTheCommand :
    Instr.wellFormed (.crc16Chk 15 65535 65535 0xFFFF 0xFFFF true true 0xFFFF 0xFFFF) = true ∧
    Instr.wellFormed (.checkParity 0 0 65535 .always1 255) = true ∧ Instr.wellFormed (.pushBit 15 true) = true := by
  decide

theorem witness_EncodeOfDecodeIsTheWord :
    decode 0x100301020304000100AB00CD00EF0012#128 =
      .ok (.crc8Chk 3 0x102 0x304 0xAB 0xCD false true 0xEF 0x12) := by decide +kernel

/-- The reserved opcodes at the ends of their ranges, and the defined ones beside them. -/
theorem witness_ReservedOpcodeIsIllegalCommand :
    (∀ n ∈ [0x00, 0x12, 0xFF],
      (shown (BitVec.ofNat 128 (n * 2 ^ 120))).pending = [.command (BitVec.ofNat 128 (n * 2 ^ 120))] ∧
      halted (shown (BitVec.ofNat 128 (n * 2 ^ 120))) = false ∧
      (opcodeOf (BitVec.ofNat 128 (n * 2 ^ 120)) = 0x00 ∨
        0x12 ≤ (opcodeOf (BitVec.ofNat 128 (n * 2 ^ 120))).toNat)) ∧
    opcodeByte .getBit = 0x01 ∧ opcodeByte .crc16Chk = 0x11 := by decide +kernel

/-- A one bit at the lower and at the upper end of a range. -/
theorem witness_MustBeZeroBitIsIllegalCommand :
    (∀ x ∈ [(0x01000000000000000000000000000001#128, 0), (0x01008000000000008000000000000000#128, 63)],
      (shown x.1).pending = [.command x.1] ∧ halted (shown x.1) = false ∧ opcodeOf x.1 = opcodeByte .getBit ∧
        (63, 0) ∈ mustBeZero .getBit ∧ 0 ≤ x.2 ∧ x.2 ≤ 63 ∧ x.1.getLsbD x.2 = true) ∧
    decode 0x0100000B000000000000000000000000#128 = .ok (.getBit 0 11) := by decide +kernel

theorem witness_StepRunsTheDecodedCommand :
    (shown 0x0100000B000000000000000000000000#128).pending = [.command 0x0100000B000000000000000000000000#128] ∧
    decode 0x0100000B000000000000000000000000#128 = .ok (.getBit 0 11) := by decide +kernel

/-- One word for each of the three answers. -/
theorem witness_EveryCommandWordIsAnswered :
    (shown 0x0100000B000000000000000000000000#128).pending = [.command 0x0100000B000000000000000000000000#128] ∧
    (run start 0x0100000B000000000000000000000000).fsr = 0 ∧ (run start 0).fsr = 0x8100 ∧
    halted (shownHalted 0) = true := by decide +kernel

theorem witness_StepStopsOnlyWithoutAMove : State.reset.pending = [] ∧ (shown 0).pending ≠ [] := by decide +kernel

/-- A faulting word of each cause. -/
theorem witness_FaultEntryIsPrecise :
    ∀ s ∈ [shown 0, shown 0x01020000000000000000000000000000, shown 0x0B000000000000000000000200000000,
        shown 0x03000000000000000000000000000000, shown 0x01000080000000000000000000000000],
      s.pending ≠ [] ∧ halted s = false ∧ isNext (step s) = true ∧ halted (after (step s)) = true := by decide +kernel

theorem witness_FaultStatusFields :
    (shown 0).pending = [.command 0#128] ∧ halted (shown 0) = false ∧ isNext (step (shown 0)) = true ∧
      halted (after (step (shown 0))) = true := by decide +kernel

theorem witness_HaltedEngineAnswersHalted :
    (shownHalted 0x01000000000000000000000000000000#128).pending =
      [.command 0x01000000000000000000000000000000#128] ∧
    halted (shownHalted 0x01000000000000000000000000000000#128) = true := by decide +kernel

theorem witness_OnlyResetLeavesTheHaltedState :
    let s := { run start 0 with pending := [.reset (cellsOf 0 [0x12])] }
    halted s = true ∧ isNext (step s) = true ∧ halted (after (step s)) = false := by decide +kernel

/-- The last byte of the last buffer, and the first byte that does not exist. -/
theorem witness_ResetLoadsAnyInitBuf :
    start.cfg = Config.reference ∧ (1 : BufferIndex).toNat < Config.reference.nbuf ∧
    15 < Config.reference.nbytesOf 1 ∧ ¬ 16 < Config.reference.nbytesOf 1 := by decide +kernel

theorem witness_ResetStateIsReady : Instr.wellFormed (.getBit 0 0) = true := by decide

/-- Buffers 1 and 2 of two; either index of `COPY_BITS`. -/
theorem witness_BadBufferExactlyWhen :
    halted start = false ∧
    (∃ b ∈ buffersOf (.getBit 2 0), start.cfg.nbuf ≤ b.toNat) ∧
    (∃ b ∈ buffersOf (.copyBits 0 0 2 0 1), start.cfg.nbuf ≤ b.toNat) ∧
    ¬ (∃ b ∈ buffersOf (.getBit 1 0), start.cfg.nbuf ≤ b.toNat) := by decide +kernel

theorem witness_BadKindExactlyWhen :
    halted start = false ∧ KindRefused (.testParity32 0 .always0) ∧ KindRefused (.testParity32 0 .always1) ∧
      ¬ KindRefused (.testParity32 0 .odd) ∧ ¬ KindRefused (.genParity32 0 .always1) := by
  refine ⟨by decide +kernel, .inl rfl, .inr rfl, ?_, id⟩
  rintro (h | h) <;> cases h

/-- The lengths at the limits: 0, 8 and 9 of `GET_BITS8`, 32 and 33 of `CHECK_PARITY`. -/
theorem witness_BadLengthExactlyWhen :
    halted start = false ∧ (∀ b ∈ buffersOf (.getBits8 1 0 9), b.toNat < start.cfg.nbuf) ∧
      LengthIllegal (.getBits8 1 0 0) ∧ LengthIllegal (.getBits8 1 0 9) ∧ ¬ LengthIllegal (.getBits8 1 0 8) ∧
      LengthIllegal (.checkParity 1 0 0 .even 33) ∧ ¬ LengthIllegal (.checkParity 1 0 0 .even 32) := by
  refine ⟨by decide +kernel, by decide +kernel, .inl rfl, .inr (by decide), ?_, .inr (by decide), ?_⟩ <;>
    rintro (h | h) <;> omega

/-- The last bit and the position after it; the wide sum of R170. -/
theorem witness_OutOfRangeExactlyWhen :
    halted start = false ∧ start.cfg.wf = true ∧ (1 : BufferIndex).toNat < start.cfg.nbuf ∧
      (∀ b ∈ buffersOf (.getBit 1 128), b.toNat < start.cfg.nbuf) ∧ ¬ LengthIllegal (.getBit 1 128) ∧
      SpanOutside start (.getBit 1 128) ∧ ¬ SpanOutside start (.getBit 1 127) := by
  refine ⟨by decide +kernel, by decide +kernel, by decide +kernel, by decide +kernel, id, ?_, ?_⟩
  · exact (by decide +kernel : ¬ 128 + 1 ≤ start.cfg.nbits 1)
  · exact (by decide +kernel : ¬ ¬ 127 + 1 ≤ start.cfg.nbits 1)

/-- One command for each clause. -/
theorem witness_FaultsInPriorityOrder :
    ((shown 0).pending = [.command 0#128] ∧ halted (shown 0) = false ∧ decode 0#128 = .error .reservedOpcode) ∧
      halted start = false ∧ (∃ b ∈ buffersOf (.getBits8 2 500 0), start.cfg.nbuf ≤ b.toNat) ∧
      KindRefused (.testParity32 0 .always0) ∧
      ((∀ b ∈ buffersOf (.getBits8 1 500 0), b.toNat < start.cfg.nbuf) ∧ ¬ KindRefused (.getBits8 1 500 0) ∧
        LengthIllegal (.getBits8 1 500 0)) ∧
      (¬ LengthIllegal (.getBits8 1 121 8) ∧ SpanOutside start (.getBits8 1 121 8)) ∧
      ¬ SpanOutside start (.getBits8 1 120 8) := by
  refine ⟨by decide +kernel, by decide +kernel, by decide +kernel, .inl rfl, ⟨by decide +kernel, id, .inl rfl⟩, ⟨?_, ?_⟩, ?_⟩
  · rintro (h | h) <;> omega
  · exact (by decide +kernel : ¬ 121 + 8 ≤ start.cfg.nbits 1)
  · exact (by decide +kernel : ¬ ¬ 120 + 8 ≤ start.cfg.nbits 1)

/-- `start` meets the invariant. -/
theorem invariant_shown (cw : CommandWord) : Invariant (shown cw) :=
  ⟨(by decide : Config.wf { nbytes := [16, 16], evenPassParity := false } = true), loadInit_wf _ _,
    loadInit_cells _ _, .inl rfl⟩

theorem witness_InvariantHoldsAtReset : Config.wf { nbytes := [8191], evenPassParity := true } = true := by decide

theorem witness_StepKeepsTheInvariant :
    Invariant (shown 0x0700000C0008000000000000000000AB#128) ∧
      isNext (step (shown 0x0700000C0008000000000000000000AB#128)) = true :=
  ⟨invariant_shown _, by decide +kernel⟩

theorem witness_ParametersNeverChange : isNext (step (shown 0)) = true := by decide +kernel

theorem witness_OnlyWritingCommandsChangeBuffers :
    (shown 0x0700000C0008000000000000000000AB#128).pending = [.command 0x0700000C0008000000000000000000AB#128] ∧
      isNext (step (shown 0x0700000C0008000000000000000000AB#128)) = true ∧
      (after (step (shown 0x0700000C0008000000000000000000AB#128))).mem ≠ start.mem := by decide +kernel

/-- The first and the last bit. -/
theorem witness_GetBitReturnsTheBit : halted start = false ∧ SpanIn start 0 0 1 ∧ SpanIn start 1 127 1 := by
  unfold SpanIn; decide +kernel

theorem witness_SetBitCommandWritesTheBit : halted start = false ∧ SpanIn start 0 0 1 ∧ SpanIn start 1 127 1 := by
  unfold SpanIn; decide +kernel

/-- Lengths 1, 8, 16, 32 and 64, each in range at the end of the buffer. -/
theorem witness_FieldReadsReturnTheField :
    halted start = false ∧ ∀ len ∈ [1, 8, 16, 32, 64], SpanIn start 1 (128 - len) len ∧ 1 ≤ len ∧ len ≤ 64 := by
  unfold SpanIn; decide +kernel

/-- Two memories that differ outside the span only. -/
theorem witness_FieldReadsAreIsolated :
    halted start = false ∧ halted digits = false ∧ start.cfg = digits.cfg ∧ start.mem ≠ digits.mem ∧
      ∀ i < 2, bitAt start.mem 0 (0 + i) = bitAt digits.mem 0 (0 + i) := by decide +kernel

theorem witness_SetBitsWritesTheField : halted start = false ∧ SpanIn start 0 12 8 ∧ SpanIn start 0 127 1 := by
  unfold SpanIn; decide +kernel

/-- Another buffer; towards position 0 in the same one; no overlap; no bit at the very end. -/
theorem witness_CopyBitsCopiesTheSpan :
    halted start = false ∧ SpanIn start 1 3 16 ∧ SpanIn start 0 12 16 ∧ (1 : BufferIndex) ≠ 0 ∧
      SpanIn start 0 0 16 ∧ SpanIn start 0 4 16 ∧ 0 ≤ 4 ∧ SpanIn start 0 128 0 := by
  unfold SpanIn; decide +kernel

theorem witness_OverlappingCopyRepeatsItsFirstBits :
    halted start = false ∧ SpanIn start 0 4 12 ∧ 0 < 4 ∧ 4 < 0 + 12 := by unfold SpanIn; decide +kernel

theorem witness_ReverseBitsReversesTheSpan :
    halted start = false ∧ SpanIn start 0 12 9 ∧ SpanIn start 0 0 128 ∧ SpanIn start 0 128 0 := by
  unfold SpanIn; decide +kernel

theorem witness_ReverseBitsIsAnInvolution :
    halted start = false ∧ SpanIn start 0 12 9 ∧ Memory.wf start.mem = true := by unfold SpanIn; decide +kernel

theorem witness_PushBitShiftsTheBuffer :
    halted start = false ∧ (1 : BufferIndex).toNat < start.cfg.nbuf ∧ 126 + 1 < start.cfg.nbits 1 ∧
      1 ≤ start.cfg.nbytesOf 1 := by decide +kernel

theorem witness_PushedStreamFillsTheBuffer :
    let s := engine [0x80] [0xFF]
    halted s = false ∧ (0 : BufferIndex).toNat < s.cfg.nbuf ∧
      [true, false, true, true, false, false, true, false].length = s.cfg.nbits 0 := by decide +kernel

theorem witness_StoreByteAndLoadByte :
    halted start = false ∧ (1 : BufferIndex).toNat < start.cfg.nbuf ∧ 15 < start.cfg.nbytesOf 1 := by decide +kernel

theorem witness_SetfWritesTheField :
    halted start = false ∧ SpanIn start 0 13 19 ∧ SpanIn start 1 64 64 ∧ SpanIn start 1 127 1 := by
  unfold SpanIn; decide +kernel

/-- A field that runs one bit past the end, and one that starts past it. -/
theorem witness_SetfPastTheEndKeepsItsEarlierChunks :
    halted start = false ∧ (0 : BufferIndex).toNat < start.cfg.nbuf ∧ start.cfg.nbits 0 < 109 + 20 ∧
      start.cfg.nbits 0 < 200 + 1 := by decide +kernel

theorem witness_ReadThenSetfRestoresEveryByte :
    halted start = false ∧ SpanIn start 0 13 19 ∧ SpanIn start 1 64 64 := by unfold SpanIn; decide +kernel

theorem witness_TestParityAgreesWithPopcount :
    halted start = false ∧ onesOf 0x3 % 2 = onesOf 0x0 % 2 ∧ onesOf 0x1 % 2 ≠ onesOf 0x0 % 2 := by
  unfold onesOf; decide +kernel

theorem witness_GenParityReturnsTheBit : halted (blocks true) = false := by decide +kernel

theorem witness_GeneratedParityPassesTheTest :
    halted start = false ∧ (0x7FFFFFFF#32).toNat < 2 ^ 31 := by decide +kernel

theorem witness_GeneratedBlockPassesTheCheck :
    halted start = false ∧ SpanIn start 0 13 5 ∧ SpanIn start 0 96 32 ∧ SpanIn start 0 127 1 := by
  unfold SpanIn; decide +kernel

/-- Several whole blocks with a rest; one block of 32; no whole block. -/
theorem witness_CheckParityTestsEveryWholeBlock :
    halted start = false ∧ SpanIn start 0 0 17 ∧ 17 / 5 = 3 ∧ SpanIn start 0 96 32 ∧ 32 / 32 = 1 ∧
      SpanIn start 0 128 0 ∧ 0 / 1 = 0 := by unfold SpanIn; decide +kernel

/-- Nine bytes; none at the very end; all sixteen. -/
theorem witness_CrcReturnsTheChecksum :
    halted digits = false ∧ BytesIn digits 0 0 9 ∧ BytesIn digits 0 16 0 ∧ BytesIn digits 1 0 16 := by
  unfold BytesIn; decide +kernel

theorem witness_CrcCheckersCompareWithTheGenerator :
    halted digits = false ∧ BytesIn digits 0 0 9 ∧ BytesIn digits 1 16 0 := by unfold BytesIn; decide +kernel

theorem witness_CrcIsTheTextbookFormWithoutAppendedZeros : 1 ≤ 8 ∧ 1 ≤ 16 := by decide

end Sys2Proof.Tests
end

section
/-! The two laws of 00_scope.md section 7: `REVERSE_BITS` twice is the identity (R13), and `TEST_PARITY32` depends on its
value only through the number of ones mod 2 (R14). -/

namespace Sys2Proof.Proofs

open Sys2Proof.Machine Sys2Proof.Safety Sys2Proof.Laws

/-! ## Reversing a span twice -/

/-- Inside the span the distance to the far end is taken twice; outside nothing moves. -/
theorem bitAt_reverseSpan_twice (m : Memory) (b b' : BufferIndex) (p n q : Nat) :
    bitAt (reverseSpan (reverseSpan m b p n) b p n) b' q = bitAt m b' q := by
  rw [bitAt_reverseSpan]
  by_cases hin : b' = b ∧ p ≤ q ∧ q < p + n
  · obtain ⟨rfl, hp, hq⟩ := hin
    have hmirror : p + (p + n - 1 - (p + (p + n - 1 - q))) = q := by omega
    rw [if_pos ⟨rfl, hp, hq⟩, bitAt_reverseSpan, if_pos ⟨rfl, by omega, by omega⟩, hmirror]
  · rw [if_neg hin, bitAt_reverseSpan, if_neg hin]

theorem reverseSpan_wf {m : Memory} (b : BufferIndex) (p n : Nat) (h : Memory.wf m = true) :
    Memory.wf (reverseSpan m b p n) = true :=
  (reverseSpan_writes (len := p + n) m (by omega)).wf h

/-- A canonical memory is determined by its bits, so it comes back as the same data. -/
theorem reverseSpan_twice_of_wf {m : Memory} (b : BufferIndex) (p n : Nat) (h : Memory.wf m = true) :
    reverseSpan (reverseSpan m b p n) b p n = m :=
  eq_of_read_eq (reverseSpan_wf b p n (reverseSpan_wf b p n h)) h
    (read_eq_of_bits fun b' q => bitAt_reverseSpan_twice m b b' p n q)

/-- The command completes on every span in range of an engine that runs. -/
theorem exec_reverseBits_of_spanIn {s : State} {b : BufferIndex} {pos len : Nat} (hrun : Running s)
    (hspan : SpanIn s b pos len) :
    exec (.reverseBits b pos len) s = .next (answerWrite (reverseSpan s.mem b pos len) s) := by
  rw [exec_reverseBits]
  exact issue_of_pass hrun (firstFault_spanChecks.mpr hspan)

/-- Settles O36: the first run leaves `FSR` and the parameters, so the second one completes too. -/
theorem reverseBitsIsAnInvolution : Obligations.ReverseBitsIsAnInvolution := by
  intro s b pos len hrun hspan
  have hrun' : Running (answerWrite (reverseSpan s.mem b pos len) s) := hrun
  have hspan' : SpanIn (answerWrite (reverseSpan s.mem b pos len) s) b pos len := hspan
  refine ⟨_, _, exec_reverseBits_of_spanIn hrun hspan, exec_reverseBits_of_spanIn hrun' hspan', ?_, ?_⟩
  · intro b' p
    exact bitAt_reverseSpan_twice s.mem b b' pos len p
  · intro hwf
    exact reverseSpan_twice_of_wf b pos len hwf

/-! ## Testing the parity of a value -/

/-- The model's recursive count is the number of ones of the claims. -/
theorem popcount_toNat (v : BitVec 32) : popcount v.toNat 32 = onesOf v :=
  popcount_eq_card v.toNat 32

/-- The two counting kinds compare the number of ones mod 2 with the residue of R8. -/
theorem passes_counting (c : Config) (g w : Nat) (odd : Bool) :
    passes c g w (if odd then .odd else .even) = decide (popcount g w % 2 = passResidue c odd) := by
  cases odd <;> rfl

theorem badTestKind_counting (odd : Bool) : badTestKind (if odd then .odd else .even) = false := by
  cases odd <;> rfl

/-- A kind that `TEST_PARITY32` takes sees the group only through its number of ones mod 2. -/
theorem passes_congr {c : Config} {g g' w : Nat} {kind : ParityKind} (hkind : badTestKind kind = false)
    (h : popcount g w % 2 = popcount g' w % 2) : passes c g w kind = passes c g' w kind := by
  cases kind with
  | even => simp only [passes, h]
  | odd => simp only [passes, h]
  | always0 => cases hkind
  | always1 => cases hkind

theorem answerBool_decide (P : Prop) [Decidable P] (s : State) :
    answerBool (decide P) s = returns (if P then 1 else 0) s := by
  by_cases h : P <;> simp [h, answerBool, answerValue_eq_returns]

/-- The command completes for the kinds it takes. -/
theorem exec_testParity32_of_kind {s : State} {kind : ParityKind} (v : BitVec 32) (hrun : Running s)
    (hkind : badTestKind kind = false) :
    exec (.testParity32 v kind) s = .next (answerBool (passes s.cfg v.toNat 32 kind) s) := by
  rw [exec_testParity32]
  exact issue_of_pass hrun (by simp [firstFault_eq_none, hkind])

/-- The command faults, whatever the value, for the kinds it refuses (R168). -/
theorem exec_testParity32_of_badKind {s : State} {kind : ParityKind} (v : BitVec 32) (hrun : Running s)
    (hkind : badTestKind kind = true) :
    exec (.testParity32 v kind) s = .next (takeFault .badKind (opcodeByte .testParity32) s) := by
  rw [exec_testParity32]
  exact issue_of_fault hrun (by simp [firstFault, hkind])

theorem exec_testParity32_of_halted {s : State} {kind : ParityKind} (v : BitVec 32) (hhalted : halted s = true) :
    exec (.testParity32 v kind) s = .next (answerHalted s) := by
  rw [exec_testParity32]
  exact issue_of_halted hhalted

/-- Halted and refused answers do not read the value; a completed one reads its number of ones mod 2. -/
theorem exec_testParity32_congr (s : State) {v v' : BitVec 32} (kind : ParityKind)
    (h : onesOf v % 2 = onesOf v' % 2) : exec (.testParity32 v kind) s = exec (.testParity32 v' kind) s := by
  cases hhalted : halted s with
  | true => rw [exec_testParity32_of_halted v hhalted, exec_testParity32_of_halted v' hhalted]
  | false =>
    cases hkind : badTestKind kind with
    | true => rw [exec_testParity32_of_badKind v hhalted hkind, exec_testParity32_of_badKind v' hhalted hkind]
    | false =>
      rw [← popcount_toNat, ← popcount_toNat] at h
      rw [exec_testParity32_of_kind v hhalted hkind, exec_testParity32_of_kind v' hhalted hkind, passes_congr hkind h]

/-- Settles O43: the result by the count of the ones, then independence of everything else. -/
theorem testParityAgreesWithPopcount : Obligations.TestParityAgreesWithPopcount := by
  refine ⟨fun s v odd hrun => ?_, fun s v v' kind h => exec_testParity32_congr s kind h⟩
  rw [exec_testParity32_of_kind v hrun (badTestKind_counting odd), passes_counting, popcount_toNat, answerBool_decide]

end Sys2Proof.Proofs
end

section
/-! The primitives of 20_memory.md as formulas: `SetBit` (R43), `Bit` (R42), `MemRead` (R44), `MemWrite` (R45). The
parts that hold of every bit stand in `Laws/Memory.lean`; here each is brought to the form of its rule. -/

namespace Sys2Proof.Proofs

open Sys2Proof.Machine Sys2Proof.Safety Sys2Proof.Laws

/-! ## One bit -/

/-- The byte that holds the position, after `SetBit`, by the masks of R43. -/
theorem readByte_setBitAt_same (m : Memory) (b : BufferIndex) (p : Nat) (v : Bool) :
    readByte (setBitAt m b p v) b (p / 8) =
      if v = true then readByte m b (p / 8) ||| bitMask p else readByte m b (p / 8) &&& (0xFF#8 ^^^ bitMask p) := by
  rw [setBitAt, readByte_writeByte, if_pos ⟨rfl, rfl⟩]

theorem bitAt_setBitAt_other {b b' : BufferIndex} {p q : Nat} (m : Memory) (v : Bool) (h : b' ≠ b ∨ q ≠ p) :
    bitAt (setBitAt m b p v) b' q = bitAt m b' q := by
  rw [bitAt_setBitAt, if_neg (not_and_or.mpr h)]

/-- Settles O24: the mask formula, then `SetBit` at the level of bits. -/
theorem setBitWritesOneBit : Obligations.SetBitWritesOneBit := by
  intro m b p v
  exact ⟨readByte_setBitAt_same m b p v, bitAt_setBitAt_same m b p v, fun _ _ h => bitAt_setBitAt_other m v h⟩

/-- `Bit` as the shift and the mask of R42. -/
theorem bitAt_toNat (m : Memory) (b : BufferIndex) (p : Nat) :
    (bitAt m b p).toNat = (readByte m b (p / 8)).toNat / 2 ^ (7 - p % 8) % 2 :=
  Nat.toNat_testBit _ _

/-! ## Fields -/

/-- The model reads position `p` first and with the highest weight; the sum of R44 has it as the term of index 0. -/
theorem memRead_eq_fieldSum (m : Memory) (b : BufferIndex) (p n : Nat) : memRead m b p n = fieldSum m b p n := by
  induction n generalizing p with
  | zero => rfl
  | succ n ih =>
    have hrest : ∀ i, (bitAt m b (p + (i + 1))).toNat * 2 ^ (n + 1 - 1 - (i + 1)) =
        (bitAt m b (p + 1 + i)).toNat * 2 ^ (n - 1 - i) := fun i => by
      rw [show p + (i + 1) = p + 1 + i by omega, show n + 1 - 1 - (i + 1) = n - 1 - i by omega]
    rw [memRead, ih, fieldSum, fieldSum, Finset.sum_range_succ', Finset.sum_congr rfl fun i _ => hrest i, Nat.add_comm]
    rfl

/-- Settles O25: the sum by induction on the length; the bound is the model's own law of fields. -/
theorem memReadIsTheSum : Obligations.MemReadIsTheSum := by
  intro m b p n
  exact ⟨bitAt_toNat m b p, memRead_eq_fieldSum m b p n, rfl, memRead_lt m b p n⟩

/-- A written position holds its bit of the value, the first position the highest (R45). -/
theorem bitAt_memWrite_inside {n i : Nat} (m : Memory) (b : BufferIndex) (p v : Nat) (hi : i < n) :
    bitAt (memWrite m b p n v) b (p + i) = v.testBit (n - 1 - i) := by
  rw [bitAt_memWrite, if_pos ⟨rfl, by omega, by omega⟩, show p + n - 1 - (p + i) = n - 1 - i by omega]

theorem memWrite_bitsOutsideSame (m : Memory) (b : BufferIndex) (p n v : Nat) :
    BitsOutsideSame m (memWrite m b p n v) b p n := by
  intro b' q hout
  rw [bitAt_memWrite, if_neg]
  rintro ⟨hb, hp, hq⟩
  rcases hout with hne | hlow | hhigh
  · exact hne hb
  · omega
  · omega

/-- The written field reads back as its low `n` bits (R45): both numbers have the same bits. -/
theorem memRead_memWrite_same (m : Memory) (b : BufferIndex) (p n v : Nat) :
    memRead (memWrite m b p n v) b p n = v % 2 ^ n := by
  refine Nat.eq_of_testBit_eq fun i => ?_
  rw [memRead_testBit, Nat.testBit_mod_two_pow]
  by_cases hi : i < n
  · rw [show p + n - 1 - i = p + (n - 1 - i) by omega, bitAt_memWrite_inside m b p v (by omega),
      show n - 1 - (n - 1 - i) = i by omega]
  · simp [hi]

/-- Settles O26: the read-back, the place of each bit, and the frame. -/
theorem memWriteThenMemRead : Obligations.MemWriteThenMemRead := by
  intro m b p n v
  exact ⟨memRead_memWrite_same m b p n v, fun _ hi => bitAt_memWrite_inside m b p v hi,
    memWrite_bitsOutsideSame m b p n v⟩

end Sys2Proof.Proofs
end

section
/-! Illegal words (30_encoding.md R68, R69): a reserved opcode, a one bit in a must-be-zero range. For R69's last
sentence the ranges of a command's operands, its must-be-zero ranges and the opcode byte together cover the word, and a
word is determined by its slices over them. -/

namespace Sys2Proof.Proofs

open Sys2Proof.Machine Sys2Proof.Safety Sys2Proof.Laws

/-! ## Slices -/

theorem slice_lt (cw : CommandWord) (hi lo : Nat) : slice cw hi lo < 2 ^ (hi - lo + 1) :=
  Nat.mod_lt _ (Nat.two_pow_pos _)

/-- A bit of the word is a bit of every slice that reaches over it. -/
theorem testBit_slice (cw : CommandWord) {hi lo j : Nat} (hlo : lo ≤ j) (hhi : j ≤ hi) :
    (slice cw hi lo).testBit (j - lo) = cw.getLsbD j := by
  rw [slice, Nat.testBit_mod_two_pow, Nat.testBit_div_two_pow, Nat.sub_add_cancel hlo,
    decide_eq_true (by omega : j - lo < hi - lo + 1), Bool.true_and]
  rfl

/-- A bit vector at least as wide as the slice holds all of it. -/
theorem toNat_ofNat_slice (cw : CommandWord) {hi lo w : Nat} (h : hi - lo + 1 ≤ w) :
    (BitVec.ofNat w (slice cw hi lo)).toNat = slice cw hi lo := by
  rw [BitVec.toNat_ofNat]
  exact Nat.mod_eq_of_lt (Nat.lt_of_lt_of_le (slice_lt cw hi lo) (Nat.pow_le_pow_right (by decide) h))

theorem toNat_opcodeOf (cw : CommandWord) : (opcodeOf cw).toNat = slice cw 127 120 :=
  toNat_ofNat_slice cw (by decide)

theorem toNat_bufaOf (cw : CommandWord) : (bufaOf cw).toNat = slice cw 115 112 :=
  toNat_ofNat_slice cw (by decide)

theorem toNat_bufbOf (cw : CommandWord) : (bufbOf cw).toNat = slice cw 119 116 :=
  toNat_ofNat_slice cw (by decide)

theorem toNat_flagBit (cw : CommandWord) (j : Nat) : (flagBit cw j).toNat = slice cw j j := by
  have hlt : slice cw j j < 2 := by simpa using slice_lt cw j j
  unfold flagBit
  generalize slice cw j j = n at hlt ⊢
  interval_cases n <;> rfl

/-- The four values of a `KIND` field name four kinds (R73). -/
theorem kindCode_kindOfCode {n : Nat} (h : n < 4) : kindCode (kindOfCode n) = n := by
  interval_cases n <;> rfl

theorem kindCode_kindOf (cw : CommandWord) : kindCode (kindOf cw) = slice cw 33 32 :=
  kindCode_kindOfCode (slice_lt cw 33 32)

/-! ## Opcode bytes -/

theorem toNat_opcodeByte_bounds (o : Opcode) : 0x01 ≤ (opcodeByte o).toNat ∧ (opcodeByte o).toNat ≤ 0x11 := by
  cases o <;> decide

/-- The table of R66 lists the operations in the order of their numbers, from 1 on. -/
theorem toNat_opcodeByte_getElem : ∀ k : Fin 17, (opcodeByte (allOpcodes[k.val]'k.isLt)).toNat = k.val + 1 := by
  decide

/-- R66 gives every byte from 0x01 to 0x11 to a command. -/
theorem exists_opcodeByte_eq {v : Byte} (hlow : 0x01 ≤ v.toNat) (hhigh : v.toNat ≤ 0x11) :
    ∃ o, opcodeByte o = v := by
  have hk := toNat_opcodeByte_getElem ⟨v.toNat - 1, by omega⟩
  exact ⟨_, BitVec.eq_of_toNat_eq (hk.trans (Nat.sub_add_cancel hlow))⟩

/-- The reserved bytes of R68 are those of no command. -/
theorem reservedByte_iff (v : Byte) : (v = 0x00 ∨ 0x12 ≤ v.toNat) ↔ ¬ ∃ o, opcodeByte o = v := by
  constructor
  · rintro hres ⟨o, rfl⟩
    obtain ⟨hlow, hhigh⟩ := toNat_opcodeByte_bounds o
    rcases hres with hzero | hbig
    · simp [hzero] at hlow
    · omega
  · intro hnone
    by_contra hdef
    obtain ⟨hne, hsmall⟩ := not_or.mp hdef
    have hpos : v.toNat ≠ 0 := fun h => hne (BitVec.eq_of_toNat_eq h)
    exact hnone (exists_opcodeByte_eq (by omega) (by omega))

theorem opcodeOfByte_eq_none {v : Byte} (h : ¬ ∃ o, opcodeByte o = v) : opcodeOfByte v = none :=
  List.find?_eq_none.mpr fun o _ heq => h ⟨o, by simpa using heq⟩

/-! ## The decoder's answers -/

theorem decode_of_reservedByte {cw : CommandWord} (h : opcodeOf cw = 0x00 ∨ 0x12 ≤ (opcodeOf cw).toNat) :
    decode cw = .error .reservedOpcode := by
  rw [decode, opcodeOfByte_eq_none ((reservedByte_iff _).mp h)]

theorem decode_of_not_reservedZero {cw : CommandWord} {o : Opcode} (h : opcodeOf cw = opcodeByte o)
    (hz : reservedZero o cw = false) : decode cw = .error .mustBeZero := by
  rw [decode, h, opcodeOfByte_opcodeByte]
  simp only [hz, Bool.false_eq_true, if_false]

/-- A word that decodes has the command's opcode byte, zeros in its must-be-zero ranges, and its operands. -/
theorem decode_eq_ok {cw : CommandWord} {i : Instr} (h : decode cw = .ok i) :
    opcodeOf cw = opcodeByte i.opcode ∧ reservedZero i.opcode cw = true ∧ operandsOf i.opcode cw = i := by
  have hop := (opcodeByte_of_decode h).symm
  cases hz : reservedZero i.opcode cw with
  | true => exact ⟨hop, rfl, Except.ok.inj ((decode_of_opcode hop hz).symm.trans h)⟩
  | false => cases (decode_of_not_reservedZero hop hz).symm.trans h

theorem slice_eq_zero_of_reservedZero {o : Opcode} {cw : CommandWord} (h : reservedZero o cw = true) {r : Nat × Nat}
    (hr : r ∈ mustBeZero o) : slice cw r.1 r.2 = 0 := by
  simpa using List.all_eq_true.mp h r hr

theorem reservedZero_eq_false {o : Opcode} {cw : CommandWord} {hi lo j : Nat} (hr : (hi, lo) ∈ mustBeZero o)
    (hlo : lo ≤ j) (hhi : j ≤ hi) (hbit : cw.getLsbD j = true) : reservedZero o cw = false := by
  by_contra hz
  have hslice : slice cw hi lo = 0 := slice_eq_zero_of_reservedZero (Bool.eq_true_of_not_eq_false hz) hr
  rw [← testBit_slice cw hlo hhi, hslice, Nat.zero_testBit] at hbit
  cases hbit

/-- A running engine answers a word that decodes to no command with ILLEGAL_COMMAND and the word's opcode byte. -/
theorem step_of_decode_error {s : State} {cw : CommandWord} {rest : List HostMove} {e : DecodeError}
    (hp : s.pending = .command cw :: rest) (hrun : Running s) (hd : decode cw = .error e) :
    step s = .next (faulted 0x1 (opcodeOf cw) { s with pending := rest }) := by
  have hhalt : halted (takeMove rest s) = false := hrun
  simp only [step, hp, runWord, hd, illegalCommand, hhalt, Bool.false_eq_true, if_false, takeFault_eq_faulted]
  rfl

/-- Settles O4: the decoder finds no operation for the byte; the table of R66 has no gap. -/
theorem reservedOpcodeIsIllegalCommand : Obligations.ReservedOpcodeIsIllegalCommand :=
  ⟨fun _ _ _ hp hrun hres => step_of_decode_error hp hrun (decode_of_reservedByte hres), reservedByte_iff⟩

/-! ## No two words mean the same command -/

/-- The ranges `[hi:lo]` of the operand fields of each command (R65), in the order of `fieldsOf`. -/
def operandRanges : Opcode → List (Nat × Nat)
  | .getBit => [(115, 112), (111, 96)]
  | .setBit => [(115, 112), (111, 96), (0, 0)]
  | .getBits8 | .getBits16 | .getBits32 | .getBits64 | .reverseBits => [(115, 112), (111, 96), (95, 80)]
  | .setBits => [(115, 112), (111, 96), (95, 80), (7, 0)]
  | .copyBits => [(119, 116), (115, 112), (111, 96), (95, 80), (79, 64)]
  | .pushBit => [(115, 112), (0, 0)]
  | .testParity32 | .genParity32 => [(33, 32), (31, 0)]
  | .checkParity => [(115, 112), (111, 96), (95, 80), (33, 32), (7, 0)]
  | .crc8 => [(115, 112), (111, 96), (95, 80), (65, 65), (64, 64), (55, 48), (39, 32), (23, 16)]
  | .crc16 => [(115, 112), (111, 96), (95, 80), (65, 65), (64, 64), (63, 48), (47, 32), (31, 16)]
  | .crc8Chk => [(115, 112), (111, 96), (95, 80), (65, 65), (64, 64), (55, 48), (39, 32), (23, 16), (7, 0)]
  | .crc16Chk => [(115, 112), (111, 96), (95, 80), (65, 65), (64, 64), (63, 48), (47, 32), (31, 16), (15, 0)]

/-- The encoder's fields of the operands the decoder reads are the word's slices over the operand ranges. -/
theorem fieldsOf_operandsOf (o : Opcode) (cw : CommandWord) :
    fieldsOf (operandsOf o cw) = (operandRanges o).map fun r => (slice cw r.1 r.2, r.2) := by
  cases o <;>
    simp [operandsOf, fieldsOf, operandRanges, toNat_bufaOf, toNat_bufbOf, toNat_flagBit, kindCode_kindOf, posOf, lenOf,
      posbOf, toNat_ofNat_slice, -BitVec.toNat_ofNat]

theorem slice_eq_of_operandsOf_eq {o : Opcode} {cw cw' : CommandWord} (h : operandsOf o cw = operandsOf o cw')
    {r : Nat × Nat} (hr : r ∈ operandRanges o) : slice cw r.1 r.2 = slice cw' r.1 r.2 := by
  have hfields := congrArg fieldsOf h
  rw [fieldsOf_operandsOf, fieldsOf_operandsOf] at hfields
  exact congrArg Prod.fst (List.map_inj_left.mp hfields r hr)

/-- No bit of the word is without meaning: it is of the opcode byte, of an operand or must be zero (R67). -/
theorem exists_range_of_bit (o : Opcode) : ∀ j < 128,
    ∃ r ∈ (127, 120) :: (operandRanges o ++ mustBeZero o), r.2 ≤ j ∧ j ≤ r.1 := by
  cases o <;> decide +kernel

/-- Words that agree over the ranges of a command are equal. -/
theorem eq_of_slice_eq {o : Opcode} {cw cw' : CommandWord}
    (h : ∀ r ∈ (127, 120) :: (operandRanges o ++ mustBeZero o), slice cw r.1 r.2 = slice cw' r.1 r.2) :
    cw = cw' := by
  refine BitVec.eq_of_getLsbD_eq fun j hj => ?_
  obtain ⟨r, hr, hlo, hhi⟩ := exists_range_of_bit o j hj
  rw [← testBit_slice cw hlo hhi, ← testBit_slice cw' hlo hhi, h r hr]

theorem decode_injective {cw cw' : CommandWord} {i : Instr} (h : decode cw = .ok i) (h' : decode cw' = .ok i) :
    cw = cw' := by
  obtain ⟨hop, hz, hargs⟩ := decode_eq_ok h
  obtain ⟨hop', hz', hargs'⟩ := decode_eq_ok h'
  refine eq_of_slice_eq (o := i.opcode) fun r hr => ?_
  rcases List.mem_cons.mp hr with rfl | hr
  · rw [← toNat_opcodeOf, ← toNat_opcodeOf, hop, hop']
  rcases List.mem_append.mp hr with hr | hr
  · exact slice_eq_of_operandsOf_eq (hargs.trans hargs'.symm) hr
  · rw [slice_eq_zero_of_reservedZero hz hr, slice_eq_zero_of_reservedZero hz' hr]

/-- Settles O5: the decoder refuses the word in the first two clauses; the third is that `decode` is injective where it
answers a command. -/
theorem mustBeZeroBitIsIllegalCommand : Obligations.MustBeZeroBitIsIllegalCommand := by
  refine ⟨?_, ?_, fun _ _ _ h h' => decode_injective h h'⟩
  · intro s cw rest o hi lo j hp hrun hop hr hlo hhi hbit
    rw [← hop]
    exact step_of_decode_error hp hrun (decode_of_not_reservedZero hop (reservedZero_eq_false hr hlo hhi hbit))
  · intro s cw rest hp hrun
    cases hd : decode cw with
    | ok i => exact .inl ⟨i, rfl⟩
    | error e => exact .inr (step_of_decode_error hp hrun hd)

end Sys2Proof.Proofs
end

section
/-! Faults and the halted state (60_exceptions.md). Every command is `issue` with its list of checks, and every list
stands in the order of the cause codes; so the fault reported is the one of the least code among the conditions that
hold (R177). The exact conditions of R167 to R170 are this one fact read at each cause. -/

namespace Sys2Proof.Proofs

open Sys2Proof.Machine Sys2Proof.Safety Sys2Proof.Laws

/-! ## A command word at a running and at a halted engine -/

theorem step_of_command {s : State} {cw : CommandWord} {rest : List HostMove} (hp : s.pending = .command cw :: rest) :
    step s = runWord cw (takeMove rest s) := by
  simp only [step, hp]

theorem runWord_of_halted {cw : CommandWord} {s : State} (h : halted s = true) :
    runWord cw s = .next (answerHalted s) := by
  rcases runWord_cases cw s with ⟨_, hrun⟩ | ⟨hrunning, _⟩ | ⟨hrunning, _⟩
  · exact hrun
  · exact absurd h (by simp [hrunning])
  · exact absurd h (by simp [hrunning])

/-- Settles O11: the halted check comes before the decoder, so the word is not looked at. -/
theorem haltedEngineAnswersHalted : Obligations.HaltedEngineAnswersHalted := by
  intro s cw rest hp hhalted
  have hhalted' : halted (takeMove rest s) = true := hhalted
  rw [step_of_command hp, runWord_of_halted hhalted']
  rfl

/-- A running engine that a word leaves halted took a fault: a completed command keeps `FSR`. -/
theorem exists_takeFault_of_halted {cw : CommandWord} {s t : State} (hrun : Running s)
    (hstep : runWord cw s = .next t) (ht : halted t = true) : ∃ c, t = takeFault c (opcodeOf cw) s := by
  rcases runWord_cases cw s with ⟨hs, _⟩ | ⟨_, c, hfault⟩ | ⟨_, i, t', _, hnext, hdone⟩
  · exact absurd hs (by simp [show halted s = false from hrun])
  · exact ⟨c, Host.Outcome.next.inj (hstep.symm.trans hfault)⟩
  · obtain rfl : t = t' := Host.Outcome.next.inj (hstep.symm.trans hnext)
    rw [halted_of_completed hdone, show halted s = false from hrun] at ht
    cases ht

/-- Settles O9: the only way into the halted state is fault entry, and fault entry is R171's state. -/
theorem faultEntryIsPrecise : Obligations.FaultEntryIsPrecise := by
  intro s t cw rest hp hrun hstep ht
  rw [step_of_command hp] at hstep
  have hrun' : Running (takeMove rest s) := hrun
  obtain ⟨c, rfl⟩ := exists_takeFault_of_halted hrun' hstep ht
  exact ⟨c, takeFault_eq_faulted c (opcodeOf cw) (takeMove rest s)⟩

/-! ## The first check that fails -/

/-- The checks stand in the order of the cause codes. -/
def InCodeOrder (l : List (Bool × Cause)) : Prop := l.Pairwise fun d d' => causeCode d.2 < causeCode d'.2

/-- In a list in code order the first check that fails is the failing check with the least code (R177). -/
theorem firstFault_eq_some_iff {l : List (Bool × Cause)} (hl : InCodeOrder l) (c : Cause) :
    firstFault l = some c ↔ (true, c) ∈ l ∧ ∀ c', causeCode c' < causeCode c → (true, c') ∉ l := by
  induction l with
  | nil => simp [firstFault]
  | cons d rest ih =>
    obtain ⟨fails, cd⟩ := d
    obtain ⟨hd, hrest⟩ := List.pairwise_cons.mp hl
    cases fails with
    | false => simpa [firstFault] using ih hrest
    | true =>
      simp only [firstFault, if_true, Option.some.injEq]
      constructor
      · rintro rfl
        refine ⟨List.mem_cons_self, fun c' hlt hmem => ?_⟩
        rcases List.mem_cons.mp hmem with heq | hmem
        · cases heq
          exact absurd hlt (BitVec.lt_irrefl _)
        · exact absurd hlt (BitVec.lt_asymm (hd _ hmem))
      · rintro ⟨hmem, hleast⟩
        rcases List.mem_cons.mp hmem with heq | hmem
        · cases heq
          rfl
        · exact absurd List.mem_cons_self (hleast cd (hd _ hmem))

@[simp] theorem mem_bufferChecks {s : State} {b : BufferIndex} {c : Cause} :
    (true, c) ∈ bufferChecks s b ↔ c = .badBuffer ∧ s.cfg.nbuf ≤ b.toNat := by
  simp [bufferChecks, badBuffer, and_comm]

@[simp] theorem mem_spanChecks {s : State} {b : BufferIndex} {pos len : Nat} {c : Cause} :
    (true, c) ∈ spanChecks s b pos len ↔
      (c = .badBuffer ∧ s.cfg.nbuf ≤ b.toNat) ∨ (c = .outOfRange ∧ ¬ pos + len ≤ s.cfg.nbits b) := by
  simp [spanChecks, badBuffer, outOfRange, and_comm]

@[simp] theorem mem_sizedSpanChecks {s : State} {b : BufferIndex} {pos len maxLen size : Nat} {c : Cause} :
    (true, c) ∈ sizedSpanChecks s b pos len maxLen size ↔
      (c = .badBuffer ∧ s.cfg.nbuf ≤ b.toNat) ∨ (c = .badLength ∧ (size = 0 ∨ maxLen < size)) ∨
        (c = .outOfRange ∧ ¬ pos + len ≤ s.cfg.nbits b) := by
  simp [sizedSpanChecks, badBuffer, badLength, outOfRange, and_comm]

@[simp] theorem mem_copyChecks {s : State} {dst src : BufferIndex} {dp sp len : Nat} {c : Cause} :
    (true, c) ∈ copyChecks s dst dp src sp len ↔
      (c = .badBuffer ∧ (s.cfg.nbuf ≤ dst.toNat ∨ s.cfg.nbuf ≤ src.toNat)) ∨
        (c = .outOfRange ∧ ¬ (dp + len ≤ s.cfg.nbits dst ∧ sp + len ≤ s.cfg.nbits src)) := by
  simp [copyChecks, badBuffer, outOfRange, and_comm, imp_iff_not_or]

@[simp] theorem mem_crcChecks {s : State} {b : BufferIndex} {off cnt : Nat} {c : Cause} :
    (true, c) ∈ crcChecks s b off cnt ↔
      (c = .badBuffer ∧ s.cfg.nbuf ≤ b.toNat) ∨ (c = .outOfRange ∧ ¬ off + cnt ≤ s.cfg.nbytesOf b) := by
  simp [crcChecks, badBuffer, bytesOutOfRange, and_comm]

@[simp] theorem badTestKind_iff {kind : ParityKind} :
    badTestKind kind = true ↔ kind = .always0 ∨ kind = .always1 := by
  cases kind <;> simp [badTestKind]

/-! ## The checks and the conditions of a command -/

/-- The checks the command makes, in the order it makes them; tied to `exec` by `exec_eq_issue`. -/
def checksOf (s : State) : Instr → List (Bool × Cause)
  | .getBit b pos | .setBit b pos _ => spanChecks s b pos 1
  | .getBits8 b pos len => sizedSpanChecks s b pos len 8 len
  | .getBits16 b pos len => sizedSpanChecks s b pos len 16 len
  | .getBits32 b pos len => sizedSpanChecks s b pos len 32 len
  | .getBits64 b pos len => sizedSpanChecks s b pos len 64 len
  | .setBits b pos _ len => sizedSpanChecks s b pos len 8 len
  | .copyBits dst dp src sp len => copyChecks s dst dp src sp len
  | .reverseBits b pos len => spanChecks s b pos len
  | .pushBit b _ => bufferChecks s b
  | .testParity32 _ kind => [(badTestKind kind, .badKind)]
  | .genParity32 _ _ => []
  | .checkParity b pos len _ bsz => sizedSpanChecks s b pos len 32 bsz
  | .crc8 b off cnt .. | .crc16 b off cnt .. | .crc8Chk b off cnt .. | .crc16Chk b off cnt .. => crcChecks s b off cnt

/-- The state after a command that completed: `STATUS` OK, and no register changed. -/
def CompletedOk (s t : State) : Prop := SameRegisters s t ∧ ∃ v, t.rsp = some (responseWord statusOk v)

theorem completedOk_answerValue (v : ResultWord) (s : State) : CompletedOk s (answerValue v s) :=
  ⟨⟨rfl, rfl, rfl⟩, v, rfl⟩

theorem completedOk_answerBool (v : Bool) (s : State) : CompletedOk s (answerBool v s) :=
  completedOk_answerValue _ s

theorem completedOk_answerWrite (m : Memory) (s : State) : CompletedOk s (answerWrite m s) :=
  ⟨⟨rfl, rfl, rfl⟩, 0, rfl⟩

/-- Every command is its checks and an effect that completes. -/
theorem exec_eq_issue (i : Instr) (s : State) :
    ∃ effect : State → State, exec i s = issue i.opcode (checksOf s i) effect s ∧ CompletedOk s (effect s) := by
  cases i with
  | getBit => exact ⟨_, exec_getBit .., completedOk_answerBool _ s⟩
  | setBit => exact ⟨_, exec_setBit .., completedOk_answerWrite _ s⟩
  | getBits8 => exact ⟨_, exec_getBits8 .., completedOk_answerValue _ s⟩
  | getBits16 => exact ⟨_, exec_getBits16 .., completedOk_answerValue _ s⟩
  | getBits32 => exact ⟨_, exec_getBits32 .., completedOk_answerValue _ s⟩
  | getBits64 => exact ⟨_, exec_getBits64 .., completedOk_answerValue _ s⟩
  | setBits => exact ⟨_, exec_setBits .., completedOk_answerWrite _ s⟩
  | copyBits => exact ⟨_, exec_copyBits .., completedOk_answerWrite _ s⟩
  | reverseBits => exact ⟨_, exec_reverseBits .., completedOk_answerWrite _ s⟩
  | pushBit => exact ⟨_, exec_pushBit .., completedOk_answerWrite _ s⟩
  | testParity32 => exact ⟨_, exec_testParity32 .., completedOk_answerBool _ s⟩
  | genParity32 => exact ⟨_, exec_genParity32 .., completedOk_answerValue _ s⟩
  | checkParity => exact ⟨_, exec_checkParity .., completedOk_answerBool _ s⟩
  | crc8 => exact ⟨_, exec_crc8 .., completedOk_answerValue _ s⟩
  | crc16 => exact ⟨_, exec_crc16 .., completedOk_answerValue _ s⟩
  | crc8Chk => exact ⟨_, exec_crc8Chk .., completedOk_answerValue _ s⟩
  | crc16Chk => exact ⟨_, exec_crc16Chk .., completedOk_answerValue _ s⟩

theorem checksOf_inCodeOrder (s : State) (i : Instr) : InCodeOrder (checksOf s i) := by
  cases i <;>
    simp [InCodeOrder, checksOf, bufferChecks, spanChecks, sizedSpanChecks, copyChecks, crcChecks, causeCode]

/-- The condition of 60_exceptions.md R167 to R170 for the cause holds of the operands. -/
def Fails (s : State) (i : Instr) : Cause → Prop
  | .illegalCommand => False
  | .badBuffer => ∃ b ∈ buffersOf i, s.cfg.nbuf ≤ b.toNat
  | .badKind => KindRefused i
  | .badLength => LengthIllegal i
  | .outOfRange => SpanOutside s i

/-- The checks a command makes are the rules' conditions: a check fails with a cause exactly where its
condition holds. -/
theorem mem_checksOf (s : State) (i : Instr) (c : Cause) : (true, c) ∈ checksOf s i ↔ Fails s i c := by
  cases c with
  | illegalCommand => cases i <;> simp [checksOf, Fails]
  | badBuffer => cases i <;> simp [checksOf, Fails, buffersOf]
  | badKind => cases i <;> simp [checksOf, Fails, KindRefused]
  | badLength => cases i <;> simp [checksOf, Fails, LengthIllegal]
  | outOfRange => cases i <;> simp [checksOf, Fails, SpanOutside]

/-! ## The fault a command raises -/

theorem causeCode_inj {c c' : Cause} (h : causeCode c = causeCode c') : c = c' := by
  revert h
  cases c <;> cases c' <;> decide

/-- What a running engine does with a command is decided by the first check that fails. -/
theorem raises_iff_firstFault {i : Instr} {s : State} (hrun : Running s) (c : Cause) :
    Raises c i s ↔ firstFault (checksOf s i) = some c := by
  obtain ⟨effect, hexec, ⟨_, hfsr, _⟩, _⟩ := exec_eq_issue i s
  rw [Raises, ← takeFault_eq_faulted, hexec]
  cases hfirst : firstFault (checksOf s i) with
  | some c' =>
    rw [issue_of_fault hrun hfirst, Option.some.injEq]
    constructor
    · intro h
      have hcause := congrArg (fun t => causeField t.fsr) (Host.Outcome.next.inj h)
      simp only [takeFault_fsr, causeField_faultWord] at hcause
      exact causeCode_inj hcause
    · rintro rfl
      rfl
  | none =>
    rw [issue_of_pass hrun hfirst]
    constructor
    · intro h
      have hhalted := congrArg halted (Host.Outcome.next.inj h)
      rw [halted_takeFault, halted, hfsr, show faultedBit s.fsr = false from hrun] at hhalted
      cases hhalted
    · intro h
      cases h

/-- R177 for every command and every cause: the fault is raised exactly where its condition holds and no condition with
a smaller code does. -/
theorem raises_iff {i : Instr} {s : State} (hrun : Running s) (c : Cause) :
    Raises c i s ↔ Fails s i c ∧ ∀ c', causeCode c' < causeCode c → ¬ Fails s i c' := by
  rw [raises_iff_firstFault hrun, firstFault_eq_some_iff (checksOf_inCodeOrder s i)]
  simp only [mem_checksOf]

/-- Where no condition holds the command completes. -/
theorem exec_completes {i : Instr} {s : State} (hrun : Running s) (h : ∀ c, ¬ Fails s i c) :
    ∃ t, exec i s = .next t ∧ CompletedOk s t := by
  obtain ⟨effect, hexec, hdone⟩ := exec_eq_issue i s
  have hpass : firstFault (checksOf s i) = none := by
    cases hfirst : firstFault (checksOf s i) with
    | none => rfl
    | some c => exact absurd ((mem_checksOf s i c).mp (mem_of_firstFault hfirst)) (h c)
  exact ⟨effect s, hexec.trans (issue_of_pass hrun hpass), hdone⟩

/-! ## Each cause: its condition, and none of the causes before it -/

theorem forall_cause {P : Cause → Prop} :
    (∀ c, P c) ↔ P .illegalCommand ∧ P .badBuffer ∧ P .badKind ∧ P .badLength ∧ P .outOfRange := by
  constructor
  · intro h
    exact ⟨h _, h _, h _, h _, h _⟩
  · rintro ⟨h1, h2, h3, h4, h5⟩ c
    cases c <;> assumption

/-- Every buffer the command names exists: R167's condition is false. -/
theorem not_fails_badBuffer {s : State} {i : Instr} :
    ¬ Fails s i .badBuffer ↔ ∀ b ∈ buffersOf i, b.toNat < s.cfg.nbuf := by
  simp only [Fails, not_exists, not_and, Nat.not_le]

theorem raises_badBuffer_iff {i : Instr} {s : State} (hrun : Running s) :
    Raises .badBuffer i s ↔ ∃ b ∈ buffersOf i, s.cfg.nbuf ≤ b.toNat := by
  simp [raises_iff hrun, forall_cause, causeCode, Fails]

theorem raises_badKind_iff {i : Instr} {s : State} (hrun : Running s) :
    Raises .badKind i s ↔ KindRefused i ∧ ∀ b ∈ buffersOf i, b.toNat < s.cfg.nbuf := by
  simp [raises_iff hrun, forall_cause, causeCode, Fails]

theorem raises_badLength_iff {i : Instr} {s : State} (hrun : Running s) :
    Raises .badLength i s ↔
      LengthIllegal i ∧ (∀ b ∈ buffersOf i, b.toNat < s.cfg.nbuf) ∧ ¬ KindRefused i := by
  simp [raises_iff hrun, forall_cause, causeCode, Fails]

theorem raises_outOfRange_iff {i : Instr} {s : State} (hrun : Running s) :
    Raises .outOfRange i s ↔
      SpanOutside s i ∧ (∀ b ∈ buffersOf i, b.toNat < s.cfg.nbuf) ∧ ¬ KindRefused i ∧ ¬ LengthIllegal i := by
  simp [raises_iff hrun, forall_cause, causeCode, Fails]

/-- The one command that refuses a kind names no buffer, has no length and no span (R168). -/
theorem kindRefused_excludes {i : Instr} (h : KindRefused i) :
    buffersOf i = [] ∧ ¬ LengthIllegal i ∧ ∀ s, ¬ SpanOutside s i := by
  cases i with
  | testParity32 value kind => exact ⟨rfl, id, fun _ => id⟩
  | _ => cases h

/-- Settles O15: no cause stands before BAD_BUFFER but ILLEGAL_COMMAND, which no command raises. -/
theorem badBufferExactlyWhen : Obligations.BadBufferExactlyWhen :=
  fun _ _ hrun => raises_badBuffer_iff hrun

/-- Settles O16: `TEST_PARITY32` names no buffer, so nothing stands before its BAD_KIND. -/
theorem badKindExactlyWhen : Obligations.BadKindExactlyWhen := by
  intro i s hrun
  rw [raises_badKind_iff hrun]
  constructor
  · exact And.left
  · intro hkind
    obtain ⟨hnone, _, _⟩ := kindRefused_excludes hkind
    exact ⟨hkind, by simp [hnone]⟩

/-- Settles O17: of the causes before BAD_LENGTH, BAD_KIND never meets it in one command. -/
theorem badLengthExactlyWhen : Obligations.BadLengthExactlyWhen := by
  intro i s hrun
  rw [raises_badLength_iff hrun]
  constructor
  · rintro ⟨hlength, hbuffers, _⟩
    exact ⟨hbuffers, hlength⟩
  · rintro ⟨hbuffers, hlength⟩
    refine ⟨hlength, hbuffers, fun hkind => ?_⟩
    obtain ⟨_, hlegal, _⟩ := kindRefused_excludes hkind
    exact hlegal hlength

/-- The longest legal buffer is below 2^16 bits. -/
theorem nbits_lt_of_wf {c : Config} (h : c.wf = true) (b : BufferIndex) : c.nbits b < 65536 := by
  simp only [Config.wf, Bool.and_eq_true, List.all_eq_true, decide_eq_true_eq] at h
  obtain ⟨_, hlengths⟩ := h
  have hle : c.nbytesOf b ≤ 8191 := by
    rw [Config.nbytesOf, List.getD_eq_getElem?_getD]
    cases hb : c.nbytes[b.toNat]? with
    | none => simp
    | some n => exact (hlengths n (List.mem_of_getElem? hb)).2
  rw [Config.nbits]
  omega

/-- Settles O18: the range condition is the last cause; in the second clause the sum is `0x1FFFE`, above every buffer. -/
theorem outOfRangeExactlyWhen : Obligations.OutOfRangeExactlyWhen := by
  constructor
  · intro i s hrun
    rw [raises_outOfRange_iff hrun]
    constructor
    · rintro ⟨hspan, hbuffers, _, hlength⟩
      exact ⟨hbuffers, hlength, hspan⟩
    · rintro ⟨hbuffers, hlength, hspan⟩
      refine ⟨hspan, hbuffers, fun hkind => ?_, hlength⟩
      obtain ⟨_, _, hinside⟩ := kindRefused_excludes hkind
      exact hinside s hspan
  · intro b s hrun hwf hb
    have hspan : ¬ 0xFFFF + 0xFFFF ≤ s.cfg.nbits b := by
      have := nbits_lt_of_wf hwf b
      omega
    exact (raises_outOfRange_iff hrun).mpr ⟨hspan, by simpa [buffersOf] using hb, id, id⟩

/-- Settles O19: a word that is no command is the decoder's refusal; for a command each clause is its cause's exact
condition, and the last one is the completion where no condition holds. -/
theorem faultsInPriorityOrder : Obligations.FaultsInPriorityOrder := by
  constructor
  · intro s cw rest hp hrun hnone
    cases hd : decode cw with
    | ok i => exact absurd hd (hnone i)
    | error e => exact step_of_decode_error hp hrun hd
  · intro i s hrun
    refine ⟨(raises_badBuffer_iff hrun).mpr, fun hb hk => (raises_badKind_iff hrun).mpr ⟨hk, hb⟩,
      fun hb hk hl => (raises_badLength_iff hrun).mpr ⟨hl, hb, hk⟩,
      fun hb hk hl hr => (raises_outOfRange_iff hrun).mpr ⟨hr, hb, hk, hl⟩, fun hb hk hl hr => ?_⟩
    obtain ⟨t, hexec, hregs, v, hrsp⟩ :=
      exec_completes hrun (forall_cause.mpr ⟨id, not_fails_badBuffer.mpr hb, hk, hl, hr⟩)
    exact ⟨t, v, hexec, hrsp, hregs⟩

end Sys2Proof.Proofs
end

section
/-! Reset (70_reset_and_hazards.md R190) with any `INIT_BUF`: the host hands over one cell for each byte that exists, and
the loaded buffers read as `INIT_BUF` there. -/

namespace Sys2Proof.Proofs

open Sys2Proof.Machine Sys2Proof.Safety Sys2Proof.Laws

/-! ## The cells that hand over `INIT_BUF` -/

/-- One cell for each byte of a buffer that exists, `BUF[b][k]` with the value `initBuf b k`. -/
def handover (c : Config) (initBuf : BufferIndex → Nat → Byte) : List Host.Cell :=
  (List.finRange 16).flatMap fun b =>
    (List.range (c.nbytesOf (.ofFin b))).map fun k => (cellAddr (.ofFin b) k, initBuf (.ofFin b) k)

theorem mem_handover {c : Config} {initBuf : BufferIndex → Nat → Byte} {cell : Host.Cell} :
    cell ∈ handover c initBuf ↔
      ∃ (b : BufferIndex) (k : Nat), k < c.nbytesOf b ∧ (cellAddr b k, initBuf b k) = cell := by
  simp only [handover, List.mem_flatMap, List.mem_finRange, true_and, List.mem_map, List.mem_range]
  exact ⟨fun ⟨b, hb⟩ => ⟨.ofFin b, hb⟩, fun ⟨b, hb⟩ => ⟨b.toFin, hb⟩⟩

/-- A listed address reads as its value where no two cells at the address differ. -/
theorem read_of_mem {m : Memory} {a : Nat} {v : Byte} (hmem : (a, v) ∈ m)
    (hsame : ∀ w, (a, w) ∈ m → w = v) : Memory.read m a = v := by
  induction m with
  | nil => cases hmem
  | cons cell rest ih =>
    obtain ⟨a', v'⟩ := cell
    by_cases ha : a' = a
    · subst ha
      rw [Memory.read, if_pos rfl]
      exact hsame v' List.mem_cons_self
    · have hrest : (a, v) ∈ rest := by simpa [Ne.symm ha] using hmem
      rw [Memory.read, if_neg ha]
      exact ih hrest fun w hw => hsame w (List.mem_cons_of_mem _ hw)

/-- Distinct bytes have distinct addresses, so every byte reads as `INIT_BUF` gives it. -/
theorem readByte_handover {c : Config} {b : BufferIndex} {k : Nat} (initBuf : BufferIndex → Nat → Byte)
    (hk : k < c.nbytesOf b) : readByte (handover c initBuf) b k = initBuf b k := by
  refine read_of_mem (mem_handover.mpr ⟨b, k, hk, rfl⟩) fun w hw => ?_
  obtain ⟨b', k', _, hcell⟩ := mem_handover.mp hw
  obtain ⟨haddr, rfl⟩ := Prod.mk.inj hcell
  obtain ⟨rfl, rfl⟩ := cellAddr_inj.mp haddr
  rfl

/-! ## The reset move -/

/-- A byte that exists reads after a reset as in the cells the host handed over. -/
theorem readByte_loadInit {c : Config} {b : BufferIndex} {k : Nat} (init : List Host.Cell)
    (hk : k < c.nbytesOf b) : readByte (loadInit c init) b k = readByte init b k := by
  rw [readByte, read_loadInit, cellExists_cellAddr, if_pos (decide_eq_true hk), readByte]

theorem step_of_reset {s : State} {init : List Host.Cell} {rest : List HostMove}
    (hp : s.pending = .reset init :: rest) : step s = .next (resetEvent init (takeMove rest s)) := by
  simp only [step, hp]

/-- Settles O13: the move is the one that hands over a cell for each byte that exists. -/
theorem resetLoadsAnyInitBuf : Obligations.ResetLoadsAnyInitBuf := by
  intro c initBuf
  refine ⟨handover c initBuf, fun s rest hcfg hp => ⟨_, step_of_reset hp, hcfg, rfl, rfl, fun b k _ hk => ?_⟩⟩
  rw [resetEvent_mem, takeMove_cfg, hcfg, readByte_loadInit _ hk, readByte_handover initBuf hk]

end Sys2Proof.Proofs
end

section
/-! Decoder and encoder as inverses (30_encoding.md sections 2 to 5). The operand ranges of every command stand from the
top of the word down and miss its must-be-zero ranges, so the encoder's fields read back one by one. -/

namespace Sys2Proof.Proofs

open Sys2Proof.Machine Sys2Proof.Safety Sys2Proof.Laws

/-! ## Fields over ranges -/

/-- The ranges `[hi:lo]` stand from the top down, the first below bit `top` and each below the one before it. -/
def Descending : Nat → List (Nat × Nat) → Prop
  | _, [] => True
  | top, (hi, lo) :: rest => hi < top ∧ lo ≤ hi ∧ Descending lo rest

/-- The field stands at the low end of its range and is no wider. -/
def FieldFits (f r : Nat × Nat) : Prop := f.2 = r.2 ∧ f.1 < 2 ^ (r.1 - r.2 + 1)

/-- Fields that fit descending ranges do not overlap. -/
theorem laid_of_fits {top : Nat} {fs rs : List (Nat × Nat)} (hfit : List.Forall₂ FieldFits fs rs)
    (hdesc : Descending top rs) : Laid top fs := by
  induction hfit generalizing top with
  | nil => trivial
  | @cons f r fs rs hf _ ih =>
    obtain ⟨v, lo⟩ := f
    obtain ⟨hi, lo'⟩ := r
    obtain ⟨rfl, hv⟩ := hf
    obtain ⟨hhi, hlo, hrest⟩ := hdesc
    simp only at hv hlo hrest
    exact ⟨by omega, Nat.lt_of_lt_of_le hv (Nat.pow_le_pow_right (by decide) (by omega)), ih hrest⟩

theorem hi_lt_of_descending {top : Nat} {rs : List (Nat × Nat)} (hdesc : Descending top rs) {r : Nat × Nat}
    (hr : r ∈ rs) : r.1 < top ∧ r.2 ≤ r.1 := by
  induction rs generalizing top with
  | nil => cases hr
  | cons d rest ih =>
    obtain ⟨hhi, hlo, hrest⟩ := hdesc
    rcases List.mem_cons.mp hr with rfl | hr
    · exact ⟨hhi, hlo⟩
    · have := ih hrest hr
      omega

/-- Every field reads back over its range: it stands above the fields after it and below those before it. -/
theorem numSlice_of_fits {top : Nat} {fs rs : List (Nat × Nat)} (hfit : List.Forall₂ FieldFits fs rs)
    (hdesc : Descending top rs) : rs.map (fun r => (numSlice (assemble fs) r.1 r.2, r.2)) = fs := by
  induction hfit generalizing top with
  | nil => rfl
  | @cons f r fs rs hf hfs ih =>
    obtain ⟨v, lo⟩ := f
    obtain ⟨hi, lo'⟩ := r
    obtain ⟨rfl, hv⟩ := hf
    obtain ⟨_, _, hrest⟩ := hdesc
    simp only at hv hrest
    have hhead : numSlice (assemble ((v, lo) :: fs)) hi lo = v := by
      rw [numSlice_from (Nat.le_refl _) (laid_of_fits hfs hrest), Nat.sub_self, numSlice_whole hv]
    have htail : ∀ d ∈ rs, (numSlice (assemble ((v, lo) :: fs)) d.1 d.2, d.2) =
        (numSlice (assemble fs) d.1 d.2, d.2) := fun d hd => by
      obtain ⟨hlt, hle⟩ := hi_lt_of_descending hrest hd
      rw [numSlice_below hlt hle]
    rw [List.map_cons, hhead, List.map_congr_left htail, ih hrest]

/-- A range that misses the range of every field reads zero. -/
theorem numSlice_of_disjoint {top hi lo : Nat} {fs rs : List (Nat × Nat)} (hfit : List.Forall₂ FieldFits fs rs)
    (hdesc : Descending top rs) (hle : lo ≤ hi) (hmiss : ∀ r ∈ rs, hi < r.2 ∨ r.1 < lo) :
    numSlice (assemble fs) hi lo = 0 := by
  induction hfit generalizing top with
  | nil => exact numSlice_nil hi lo
  | @cons f r fs rs hf hfs ih =>
    obtain ⟨v, l⟩ := f
    obtain ⟨h, l'⟩ := r
    obtain ⟨rfl, hv⟩ := hf
    obtain ⟨_, hhl, hrest⟩ := hdesc
    simp only at hv hhl hrest
    rcases hmiss _ List.mem_cons_self with hbelow | habove
    · rw [numSlice_below hbelow hle, ih hrest fun r hr => hmiss r (List.mem_cons_of_mem _ hr)]
    · simp only at habove
      rw [numSlice_from (by omega) (laid_of_fits hfs hrest)]
      exact numSlice_above (Nat.lt_of_lt_of_le hv (Nat.pow_le_pow_right (by decide) (by omega)))

/-! ## The fields of a command word -/

/-- Every operand of a well-formed command fits its range of R65. -/
theorem fieldsOf_fits (i : Instr) (h : i.wellFormed = true) :
    List.Forall₂ FieldFits (fieldsOf i) (operandRanges i.opcode) := by
  have h1 : ∀ b : Bool, b.toNat < 2 := Bool.toNat_lt
  have h4 : ∀ b : BitVec 4, b.toNat < 16 := fun b => b.isLt
  have h8 : ∀ b : BitVec 8, b.toNat < 256 := fun b => b.isLt
  have h16 : ∀ b : BitVec 16, b.toNat < 65536 := fun b => b.isLt
  have h32 : ∀ b : BitVec 32, b.toNat < 4294967296 := fun b => b.isLt
  cases i <;>
    simp [Instr.wellFormed, fits16, fits8, fieldsOf, operandRanges, Instr.opcode, FieldFits, h1, h4, h8, h16, h32,
      kindCode_lt] at h ⊢ <;>
    omega

/-- The opcode byte's range, the operand ranges of a command below it. -/
theorem descending_operandRanges (o : Opcode) : Descending 128 ((127, 120) :: operandRanges o) := by
  cases o <;> simp [Descending, operandRanges]

theorem layoutOf_fits (i : Instr) (h : i.wellFormed = true) :
    List.Forall₂ FieldFits (layoutOf i) ((127, 120) :: operandRanges i.opcode) :=
  .cons ⟨rfl, (opcodeByte i.opcode).isLt⟩ (fieldsOf_fits i h)

/-- No must-be-zero range of R67 meets an operand or the opcode byte. -/
theorem mustBeZero_disjoint (o : Opcode) : ∀ z ∈ mustBeZero o,
    z.2 ≤ z.1 ∧ ∀ r ∈ (127, 120) :: operandRanges o, z.1 < r.2 ∨ r.1 < z.2 := by
  cases o <;> decide

theorem reservedZero_encode (i : Instr) (h : i.wellFormed = true) : reservedZero i.opcode (encode i) = true := by
  refine List.all_eq_true.mpr fun z hz => ?_
  obtain ⟨hle, hmiss⟩ := mustBeZero_disjoint i.opcode z hz
  rw [slice_encode i h, numSlice_of_disjoint (layoutOf_fits i h) (descending_operandRanges _) hle hmiss]
  rfl

/-- The slices of an encoded word over the operand ranges are the operands. -/
theorem slices_encode (i : Instr) (h : i.wellFormed = true) :
    (operandRanges i.opcode).map (fun r => (slice (encode i) r.1 r.2, r.2)) = fieldsOf i := by
  have hread := numSlice_of_fits (layoutOf_fits i h) (descending_operandRanges _)
  simp only [slice_encode i h]
  exact (List.cons.inj hread).2

/-- A word whose operand ranges hold the fields of a command has the command's operands. -/
theorem operandsOf_of_slices {i : Instr} {cw : CommandWord}
    (h : (operandRanges i.opcode).map (fun r => (slice cw r.1 r.2, r.2)) = fieldsOf i) :
    operandsOf i.opcode cw = i := by
  cases i <;>
    simp [operandRanges, Instr.opcode, fieldsOf] at h <;>
    simp [operandsOf, Instr.opcode, bufaOf, bufbOf, posOf, lenOf, posbOf, kindOf, kindOfCode_kindCode,
      flagBit, h]

/-- Settles O1: the opcode byte selects the command, its must-be-zero ranges are zero, and its operands read back. -/
theorem decodeOfEncodeIsTheCommand : Obligations.DecodeOfEncodeIsTheCommand := by
  intro i h
  rw [decode_of_opcode (opcodeOf_encode i h) (reservedZero_encode i h), operandsOf_of_slices (slices_encode i h)]

/-- What the decoder reads fits the fields it reads it from. -/
theorem operandsOf_wellFormed (o : Opcode) (cw : CommandWord) : (operandsOf o cw).wellFormed = true := by
  have hpos : posOf cw < 65536 := slice_lt cw 111 96
  have hlen : lenOf cw < 65536 := slice_lt cw 95 80
  have hposb : posbOf cw < 65536 := slice_lt cw 79 64
  have hbsz : slice cw 7 0 < 256 := slice_lt cw 7 0
  cases o <;> simp [operandsOf, Instr.wellFormed, fits16, fits8, hpos, hlen, hposb, hbsz]

/-- Settles O2: the word and the encoding of what it decodes to decode alike, and no two words do. -/
theorem encodeOfDecodeIsTheWord : Obligations.EncodeOfDecodeIsTheWord := by
  intro cw i h
  have hwf : i.wellFormed = true := by
    obtain ⟨_, _, hargs⟩ := decode_eq_ok h
    rw [← hargs]
    exact operandsOf_wellFormed _ cw
  exact ⟨hwf, decode_injective (decodeOfEncodeIsTheCommand i hwf) h⟩

/-- Settles O3: six words of the spec's vectors, evaluated. -/
theorem sampleWordsDecode : Obligations.SampleWordsDecode := by
  unfold Obligations.SampleWordsDecode
  decide +kernel

end Sys2Proof.Proofs
end

section
/-! The whole machine: what every step keeps, and how every command word is answered. Each proof reads the cases of
`step_cases` and `runWord_cases`; none looks into a command. -/

namespace Sys2Proof.Proofs

open Sys2Proof.Machine Sys2Proof.Safety Sys2Proof.Laws

/-! ## The invariant -/

theorem invariant_resetEvent {s : State} (init : List Host.Cell) (hcfg : s.cfg.wf = true) :
    Invariant (resetEvent init s) :=
  ⟨hcfg, loadInit_wf _ _, loadInit_cells _ _, .inl rfl⟩

theorem invariant_takeMove {s : State} (rest : List HostMove) (h : Invariant s) : Invariant (takeMove rest s) :=
  ⟨h.cfg, h.mem, h.cells, h.fsr⟩

theorem invariant_answerHalted {s : State} (h : Invariant s) : Invariant (answerHalted s) :=
  ⟨h.cfg, h.mem, h.cells, h.fsr⟩

theorem invariant_takeFault {s : State} (c : Cause) (op : Byte) (h : Invariant s) : Invariant (takeFault c op s) :=
  ⟨h.cfg, h.mem, h.cells, .inr ⟨c, op, rfl⟩⟩

/-- A completed command writes existing bytes only, and keeps the canonical form. -/
theorem invariant_of_completed {i : Instr} {s t : State} (h : Invariant s) (hdone : Completed i s t) :
    Invariant t := by
  obtain ⟨⟨hcfg, hfsr, _⟩, ⟨_, hmem, _⟩ | ⟨b, _, hwrites, _⟩⟩ := hdone
  · exact ⟨hcfg ▸ h.cfg, hmem ▸ h.mem, hcfg ▸ hmem ▸ h.cells, hfsr ▸ h.fsr⟩
  · exact ⟨hcfg ▸ h.cfg, hwrites.wf h.mem, hcfg ▸ hwrites.cells h.cells, hfsr ▸ h.fsr⟩

theorem runWord_keeps_invariant {cw : CommandWord} {s t : State} (h : Invariant s)
    (hrun : runWord cw s = .next t) : Invariant t := by
  rcases runWord_cases cw s with ⟨_, hnext⟩ | ⟨_, c, hnext⟩ | ⟨_, i, t', _, hnext, hdone⟩ <;>
    obtain rfl := Host.Outcome.next.inj (hnext.symm.trans hrun)
  · exact invariant_answerHalted h
  · exact invariant_takeFault c _ h
  · exact invariant_of_completed h hdone

/-- Settles O21: a reset establishes the invariant afresh, and every answer to a command word keeps it. -/
theorem stepKeepsTheInvariant : Obligations.StepKeepsTheInvariant := by
  intro s t hinv hstep
  rcases step_cases s with ⟨_, hstop⟩ | ⟨init, rest, _, hreset⟩ | ⟨cw, rest, _, hword⟩
  · cases hstop.symm.trans hstep
  · obtain rfl := Host.Outcome.next.inj (hreset.symm.trans hstep)
    exact invariant_resetEvent init hinv.cfg
  · exact runWord_keeps_invariant (invariant_takeMove rest hinv) (hword.symm.trans hstep)

/-- Settles O20: `State.reset` lists no cell, and every other engine after a reset has been loaded. -/
theorem invariantHoldsAtReset : Obligations.InvariantHoldsAtReset :=
  ⟨⟨by decide, rfl, fun _ hmem => absurd hmem List.not_mem_nil, .inl rfl⟩, fun _ init hwf => invariant_resetEvent init hwf⟩

/-! ## Parameters -/

theorem runWord_cfg {cw : CommandWord} {s t : State} (hrun : runWord cw s = .next t) : t.cfg = s.cfg := by
  rcases runWord_cases cw s with ⟨_, hnext⟩ | ⟨_, c, hnext⟩ | ⟨_, i, t', _, hnext, ⟨hcfg, _⟩, _⟩ <;>
    obtain rfl := Host.Outcome.next.inj (hnext.symm.trans hrun)
  · rfl
  · rfl
  · exact hcfg

/-- Settles O22: neither a reset nor a command word changes the parameters. -/
theorem parametersNeverChange : Obligations.ParametersNeverChange := by
  intro s t hstep
  rcases step_cases s with ⟨_, hstop⟩ | ⟨init, rest, _, hreset⟩ | ⟨cw, rest, _, hword⟩
  · cases hstop.symm.trans hstep
  · obtain rfl := Host.Outcome.next.inj (hreset.symm.trans hstep)
    rfl
  · exact (runWord_cfg (hword.symm.trans hstep)).trans (takeMove_cfg _ _)

/-! ## Buffers -/

/-- Settles O23: HALTED and a fault leave the memory; a completed command writes bytes of its destination only. -/
theorem onlyWritingCommandsChangeBuffers : Obligations.OnlyWritingCommandsChangeBuffers := by
  intro s t cw rest hp hstep
  rw [step_of_command hp] at hstep
  rcases runWord_cases cw (takeMove rest s) with
    ⟨_, hnext⟩ | ⟨_, c, hnext⟩ | ⟨hrun, i, t', hdec, hnext, hdone⟩ <;>
    obtain rfl := Host.Outcome.next.inj (hnext.symm.trans hstep)
  · exact .inl rfl
  · exact .inl rfl
  · have hrun' : Running t' := (halted_of_completed hdone).trans hrun
    obtain ⟨_, ⟨_, hmem, _⟩ | ⟨b, hb, hwrites, hrsp⟩⟩ := hdone
    · exact .inl hmem
    · exact .inr ⟨hrun, hrun', hrsp, i, b, hdec, hb, fun _ _ hne => hwrites.readByte_other hne⟩

/-! ## The answer to a command word -/

theorem rsp_of_completed {i : Instr} {s t : State} (hdone : Completed i s t) :
    ∃ v, t.rsp = some (responseWord statusOk v) ∧ (writtenBuffer i ≠ none → v = 0) := by
  obtain ⟨_, ⟨hnone, _, v, hrsp⟩ | ⟨_, _, _, hrsp⟩⟩ := hdone
  · exact ⟨v, hrsp, fun hsome => absurd hnone hsome⟩
  · exact ⟨0, hrsp, fun _ => rfl⟩

/-- Settles O7: the three cases of a command word in the terms of the response word (R64). -/
theorem everyCommandWordIsAnswered : Obligations.EveryCommandWordIsAnswered := by
  intro s cw rest hp
  rw [step_of_command hp]
  rcases runWord_cases cw (takeMove rest s) with
    ⟨hhalt, hnext⟩ | ⟨hrun, c, hnext⟩ | ⟨hrun, i, t, hdec, hnext, hdone⟩
  · exact ⟨_, _, hnext, rfl, rfl, .inr (.inr ⟨hhalt, statusField_responseWord _ _, resultField_responseWord _ _⟩)⟩
  · exact ⟨_, _, hnext, rfl, rfl, .inr (.inl ⟨hrun, halted_takeFault _ _ _, resultField_responseWord _ _, c,
      statusField_responseWord _ _, causeField_faultWord _ _⟩)⟩
  · obtain ⟨v, hrsp, hzero⟩ := rsp_of_completed hdone
    obtain ⟨⟨_, _, hpending⟩, _⟩ := id hdone
    refine ⟨t, _, hnext, hrsp, hpending, .inl ⟨statusField_responseWord _ _, hrun,
      (halted_of_completed hdone).trans hrun, i, hdec, fun hw => ?_⟩⟩
    rw [resultField_responseWord, hzero hw]

theorem toNat_causeCode_bounds (c : Cause) : 1 ≤ (causeCode c).toNat ∧ (causeCode c).toNat ≤ 5 := by
  cases c <;> decide

/-- Settles O10: the halted state is the one fault entry leaves, and its register is the fault word. -/
theorem faultStatusFields : Obligations.FaultStatusFields := by
  intro s t cw rest hp hrun hstep ht
  rw [step_of_command hp] at hstep
  have hrun' : Running (takeMove rest s) := hrun
  obtain ⟨c, rfl⟩ := exists_takeFault_of_halted hrun' hstep ht
  rw [takeFault_fsr, takeFault_rsp, causeField_faultWord]
  obtain ⟨hlow, hhigh⟩ := toNat_causeCode_bounds c
  exact ⟨faultedBit_faultWord _ _, reservedField_faultWord _ _, opField_faultWord _ _, hlow, hhigh, rfl⟩

/-! ## Leaving the halted state -/

/-- A reset clears `FSR`, so the engine accepts commands (R190). -/
theorem running_resetEvent (init : List Host.Cell) (s : State) : Running (resetEvent init s) := by
  rw [Running, halted, resetEvent_fsr]
  decide

/-- Settles O12: a command word leaves a halted engine halted; a reset clears `FSR`. -/
theorem onlyResetLeavesTheHaltedState : Obligations.OnlyResetLeavesTheHaltedState := by
  constructor
  · intro s t hhalt hstep hrun
    rcases step_cases s with ⟨_, hstop⟩ | ⟨init, rest, hp, _⟩ | ⟨cw, rest, _, hword⟩
    · cases hstop.symm.trans hstep
    · exact ⟨init, rest, hp⟩
    · have hhalt' : halted (takeMove rest s) = true := hhalt
      rw [hword, runWord_of_halted hhalt'] at hstep
      obtain rfl := Host.Outcome.next.inj hstep
      cases hhalt.symm.trans hrun
  · intro s init rest hp
    exact ⟨_, step_of_reset hp, running_resetEvent _ _, rfl⟩

/-! ## Steps -/

theorem step_of_decode_ok {s : State} {cw : CommandWord} {rest : List HostMove} {i : Instr}
    (hp : s.pending = .command cw :: rest) (hd : decode cw = .ok i) : step s = exec i (takeMove rest s) := by
  simp only [step_of_command hp, runWord, hd]

/-- Settles O6: the move is taken off the schedule, and the word runs as the command it decodes to. -/
theorem stepRunsTheDecodedCommand : Obligations.StepRunsTheDecodedCommand :=
  fun _ _ _ _ hp hd => step_of_decode_ok hp hd

theorem runWord_isNext (cw : CommandWord) (s : State) : ∃ t, runWord cw s = .next t := by
  rcases runWord_cases cw s with ⟨_, hnext⟩ | ⟨_, c, hnext⟩ | ⟨_, i, t, _, hnext, _⟩ <;> exact ⟨_, hnext⟩

/-- Settles O8: a reset and every command word give a next state. -/
theorem stepStopsOnlyWithoutAMove : Obligations.StepStopsOnlyWithoutAMove := by
  intro s
  rcases step_cases s with ⟨hp, hstop⟩ | ⟨init, rest, hp, hreset⟩ | ⟨cw, rest, hp, hword⟩
  · exact ⟨fun _ => hstop, fun hne => absurd hp hne⟩
  · exact ⟨fun hnil => by simp [hp] at hnil, fun _ => ⟨_, hreset⟩⟩
  · rw [hword]
    exact ⟨fun hnil => by simp [hp] at hnil, fun _ => runWord_isNext cw _⟩

/-- Settles O14: the word of a well-formed command decodes to it, and taking its one move leaves the engine as it was
right after the reset. -/
theorem resetStateIsReady : Obligations.ResetStateIsReady := by
  refine ⟨rfl, fun c init => ⟨rfl, running_resetEvent _ _, rfl, fun i hwf => ?_⟩⟩
  rw [step_of_decode_ok rfl (decodeOfEncodeIsTheCommand i hwf)]
  rfl

end Sys2Proof.Proofs
end

section
/-! Bits and fields as commands: the reads (40_bit_access.md, 41_field_read.md), the writes, copies and shifts
(42_field_write_copy.md, 43_reverse_push.md). Each command is run once on operands in range; the law of its loop says
what every bit is afterwards, and the frame of a writing command follows from the bits. -/

namespace Sys2Proof.Proofs

open Sys2Proof.Machine Sys2Proof.Safety Sys2Proof.Laws

/-! ## A field is its chunks -/

/-- A field cut in two: the first part stands above the second (R44). -/
theorem memRead_add (m : Memory) (b : BufferIndex) (p n k : Nat) :
    memRead m b p (n + k) = memRead m b p n * 2 ^ k + memRead m b (p + n) k := by
  induction n generalizing p with
  | zero => simp [memRead]
  | succ n ih =>
    rw [Nat.add_right_comm, memRead, ih, memRead, show p + 1 + n = p + (n + 1) by omega, pow_add]
    ring

/-- An aligned field of eight bits is the byte: both have bit `i` at position `8k + 7 - i`. -/
theorem memRead_byte (m : Memory) (b : BufferIndex) (k : Nat) : memRead m b (8 * k) 8 = (readByte m b k).toNat := by
  refine Nat.eq_of_testBit_eq fun i => ?_
  rw [memRead_testBit]
  by_cases hi : i < 8
  · have hbyte : (8 * k + 8 - 1 - i) / 8 = k := by omega
    have hbit : 7 - (8 * k + 8 - 1 - i) % 8 = i := by omega
    rw [decide_eq_true hi, Bool.true_and, bitAt, hbyte, hbit]
    rfl
  · rw [decide_eq_false hi, Bool.false_and]
    exact (BitVec.getLsbD_of_ge (readByte m b k) i (by omega)).symm

/-- Settles O27: the cut by induction on the first part; 16 aligned bits are two aligned bytes. -/
theorem fieldIsItsChunks : Obligations.FieldIsItsChunks := by
  intro m b
  refine ⟨memRead_add m b, memRead_byte m b, fun k => ?_⟩
  rw [memRead_add m b (8 * k) 8 8, memRead_byte, show 8 * k + 8 = 8 * (k + 1) by ring, memRead_byte,
    show 2 ^ 8 = 256 by rfl]

/-! ## The reads -/

theorem exec_getBit_of_spanIn {s : State} {b : BufferIndex} {pos : Nat} (hrun : Running s)
    (hspan : SpanIn s b pos 1) : exec (.getBit b pos) s = .next (answerBool (bitAt s.mem b pos) s) := by
  rw [exec_getBit]
  exact issue_of_pass hrun (firstFault_spanChecks.mpr hspan)

/-- Settles O28: `Bit` as the shift and the mask of R42. -/
theorem getBitReturnsTheBit : Obligations.GetBitReturnsTheBit := by
  intro s b pos hrun hspan
  rw [exec_getBit_of_spanIn hrun hspan, ← bitAt_toNat]
  rfl

/-- A command on a span, with its size operand within the limit, has its effect. -/
theorem issue_of_sizedSpan {o : Opcode} {effect : State → State} {s : State} {b : BufferIndex}
    {pos len maxLen size : Nat} (hrun : Running s) (hspan : SpanIn s b pos len) (hpos : 1 ≤ size)
    (hmax : size ≤ maxLen) : issue o (sizedSpanChecks s b pos len maxLen size) effect s = .next (effect s) :=
  issue_of_pass hrun (firstFault_sizedSpanChecks.mpr ⟨hspan, hpos, hmax⟩)

/-- The common rule of the four reads (R100), as an answer. -/
theorem readField_of_spanIn {o : Opcode} {maxLen : Nat} {s : State} {b : BufferIndex} {pos len : Nat}
    (hrun : Running s) (hspan : SpanIn s b pos len) (hpos : 1 ≤ len) (hmax : len ≤ maxLen) :
    readField o maxLen b pos len s = .next (returns (BitVec.ofNat 64 (memRead s.mem b pos len)) s) :=
  issue_of_sizedSpan hrun hspan hpos hmax

/-- Settles O30: each read is the common rule with its own limit, and `MemRead` is the sum. -/
theorem fieldReadsReturnTheField : Obligations.FieldReadsReturnTheField := by
  intro s b pos len hrun hspan hpos
  rw [← memRead_eq_fieldSum]
  exact ⟨memRead_lt s.mem b pos len, readField_of_spanIn hrun hspan hpos, readField_of_spanIn hrun hspan hpos,
    readField_of_spanIn hrun hspan hpos, readField_of_spanIn hrun hspan hpos⟩

/-- Two running engines whose checks agree give one response to a read where the spans hold the same bits. -/
theorem readField_isolated {s s' : State} {b : BufferIndex} {pos len : Nat} (o : Opcode) (maxLen : Nat)
    (hrun : Running s) (hrun' : Running s') (hcfg : s.cfg = s'.cfg)
    (hbits : ∀ i, i < len → bitAt s.mem b (pos + i) = bitAt s'.mem b (pos + i)) :
    ∃ t t', readField o maxLen b pos len s = .next t ∧ readField o maxLen b pos len s' = .next t' ∧
      t.rsp = t'.rsp := by
  have hchecks : sizedSpanChecks s b pos len maxLen len = sizedSpanChecks s' b pos len maxLen len := by
    simp only [sizedSpanChecks, badBuffer, outOfRange, hcfg]
  cases hfirst : firstFault (sizedSpanChecks s b pos len maxLen len) with
  | some c => exact ⟨_, _, issue_of_fault hrun hfirst, issue_of_fault hrun' (hchecks ▸ hfirst), rfl⟩
  | none =>
    refine ⟨_, _, issue_of_pass hrun hfirst, issue_of_pass hrun' (hchecks ▸ hfirst), ?_⟩
    rw [answerValue_rsp, answerValue_rsp, memRead_congr hbits]

/-- Settles O31: all four reads are the common rule. -/
theorem fieldReadsAreIsolated : Obligations.FieldReadsAreIsolated := by
  intro s s' b pos len hrun hrun' hcfg hbits i hi
  simp only [List.mem_cons, List.not_mem_nil, or_false] at hi
  rcases hi with rfl | rfl | rfl | rfl
  · exact readField_isolated .getBits8 8 hrun hrun' hcfg hbits
  · exact readField_isolated .getBits16 16 hrun hrun' hcfg hbits
  · exact readField_isolated .getBits32 32 hrun hrun' hcfg hbits
  · exact readField_isolated .getBits64 64 hrun hrun' hcfg hbits

/-! ## The frame of a writing command -/

/-- A byte that holds no position of the span keeps its eight bits. -/
theorem bytesOutsideSame_of_bits {m m' : Memory} {b : BufferIndex} {pos len : Nat}
    (h : BitsOutsideSame m m' b pos len) : BytesOutsideSame m m' b pos len := by
  intro a hout
  have hbyte : readByte m' (BitVec.ofNat 4 a) (a / 16) = readByte m (BitVec.ofNat 4 a) (a / 16) := by
    refine readByte_eq_of_bits fun p hp => h _ _ ?_
    by_contra hin
    simp only [not_or, not_not, Nat.not_lt, Nat.not_le] at hin
    obtain ⟨hb, hlow, hhigh⟩ := hin
    exact hout p hlow hhigh (by rw [← hb, hp, cellAddr_surj])
  simpa only [readByte, cellAddr_surj] using hbyte

/-- A command that ends with `answerWrite` needs its frame shown on the bits only. -/
theorem writesOnly_answerWrite {s : State} {m : Memory} {b : BufferIndex} {pos len : Nat}
    (h : BitsOutsideSame s.mem m b pos len) : WritesOnly s (answerWrite m s) b pos len :=
  ⟨rfl, ⟨rfl, rfl, rfl⟩, h, bytesOutsideSame_of_bits h⟩

/-- A memory that differs only where `b' = b` and the position lies in the span. -/
theorem bitsOutsideSame_of_ite {m m' : Memory} {b : BufferIndex} {pos len : Nat} {f : Nat → Bool}
    (h : ∀ b' q, bitAt m' b' q = if b' = b ∧ pos ≤ q ∧ q < pos + len then f q else bitAt m b' q) :
    BitsOutsideSame m m' b pos len := by
  intro b' q hout
  rw [h, if_neg]
  rintro ⟨rfl, hlow, hhigh⟩
  rcases hout with hne | hlow' | hhigh'
  · exact hne rfl
  · omega
  · omega

/-! ## The writes -/

theorem exec_setBit_of_spanIn {s : State} {b : BufferIndex} {pos : Nat} (bit : Bool) (hrun : Running s)
    (hspan : SpanIn s b pos 1) :
    exec (.setBit b pos bit) s = .next (answerWrite (setBitAt s.mem b pos bit) s) := by
  rw [exec_setBit]
  exact issue_of_pass hrun (firstFault_spanChecks.mpr hspan)

/-- Settles O29: the bit reads back, and one position is a span of length 1. -/
theorem setBitCommandWritesTheBit : Obligations.SetBitCommandWritesTheBit := by
  intro s b pos bit hrun hspan
  refine ⟨_, exec_setBit_of_spanIn bit hrun hspan, bitAt_setBitAt_same .., writesOnly_answerWrite ?_⟩
  intro b' p hout
  refine bitAt_setBitAt_other _ _ (hout.imp_right fun hp => ?_)
  omega

theorem exec_setBits_of_spanIn {s : State} {b : BufferIndex} {pos len : Nat} (val : Byte) (hrun : Running s)
    (hspan : SpanIn s b pos len) (hpos : 1 ≤ len) (hmax : len ≤ 8) :
    exec (.setBits b pos val len) s = .next (answerWrite (memWrite s.mem b pos len val.toNat) s) := by
  rw [exec_setBits]
  exact issue_of_sizedSpan hrun hspan hpos hmax

/-- Settles O32: `MemWrite` and its three postconditions (R45). -/
theorem setBitsWritesTheField : Obligations.SetBitsWritesTheField := by
  intro s b pos val len hrun hspan hpos hmax
  exact ⟨_, exec_setBits_of_spanIn val hrun hspan hpos hmax,
    fun i hi => bitAt_memWrite_inside s.mem b pos val.toNat hi, memRead_memWrite_same s.mem b pos len val.toNat,
    writesOnly_answerWrite (memWrite_bitsOutsideSame s.mem b pos len val.toNat)⟩

/-! ## Copies -/

theorem exec_copyBits_of_spanIn {s : State} {dst src : BufferIndex} {dstPos srcPos len : Nat} (hrun : Running s)
    (hdst : SpanIn s dst dstPos len) (hsrc : SpanIn s src srcPos len) :
    exec (.copyBits dst dstPos src srcPos len) s = .next (answerWrite (copySpan s.mem dst dstPos src srcPos len) s) := by
  rw [exec_copyBits]
  exact issue_of_pass hrun (firstFault_copyChecks.mpr ⟨hdst, hsrc⟩)

theorem copySpan_writesOnly (s : State) (dst src : BufferIndex) (dstPos srcPos len : Nat) :
    WritesOnly s (answerWrite (copySpan s.mem dst dstPos src srcPos len) s) dst dstPos len :=
  writesOnly_answerWrite (bitsOutsideSame_of_ite fun b' q => bitAt_copySpan s.mem dst src b' dstPos srcPos len q)

/-- Bit `i` of the destination, with the offset counted modulo the distance where the destination starts later. -/
theorem bitAt_copySpan_inside {len i : Nat} (m : Memory) (dst src : BufferIndex) (dstPos srcPos : Nat) (hi : i < len) :
    bitAt (copySpan m dst dstPos src srcPos len) dst (dstPos + i) =
      bitAt m src (srcPos + if dst = src ∧ srcPos < dstPos then i % (dstPos - srcPos) else i) := by
  rw [bitAt_copySpan, if_pos ⟨rfl, by omega, by omega⟩, Nat.add_sub_cancel_left]

/-- Settles O33: without a forward overlap the offset is below the distance, or no distance counts. -/
theorem copyBitsCopiesTheSpan : Obligations.CopyBitsCopiesTheSpan := by
  intro s dst src dstPos srcPos len hrun hdst hsrc
  refine ⟨_, exec_copyBits_of_spanIn hrun hdst hsrc, copySpan_writesOnly s dst src dstPos srcPos len,
    fun hapart i hi => ?_⟩
  rw [answerWrite_mem, bitAt_copySpan_inside _ _ _ _ _ hi]
  by_cases hforward : dst = src ∧ srcPos < dstPos
  · obtain ⟨rfl, hlt⟩ := hforward
    have hfar : srcPos + len ≤ dstPos := by
      rcases hapart with hne | hback | hfar
      · exact absurd rfl hne
      · omega
      · exact hfar
    rw [if_pos ⟨rfl, hlt⟩, Nat.mod_eq_of_lt (by omega)]
  · rw [if_neg hforward]

/-- Settles O34: the source span ends before the destination span, so it is in range too. -/
theorem overlappingCopyRepeatsItsFirstBits : Obligations.OverlappingCopyRepeatsItsFirstBits := by
  intro s b dstPos srcPos len hrun hdst hlt _
  have hsrc : SpanIn s b srcPos len := by
    obtain ⟨hb, hrange⟩ := hdst
    exact ⟨hb, by omega⟩
  refine ⟨_, exec_copyBits_of_spanIn hrun hdst hsrc, copySpan_writesOnly s b b dstPos srcPos len, fun i hi => ?_⟩
  rw [answerWrite_mem, bitAt_copySpan_inside _ _ _ _ _ hi, if_pos ⟨rfl, hlt⟩]

/-! ## Reversal -/

/-- Settles O35: the swap loop at the level of bits. -/
theorem reverseBitsReversesTheSpan : Obligations.ReverseBitsReversesTheSpan := by
  intro s b pos len hrun hspan
  refine ⟨_, exec_reverseBits_of_spanIn hrun hspan,
    writesOnly_answerWrite (bitsOutsideSame_of_ite fun b' q => bitAt_reverseSpan s.mem b b' pos len q), fun i hi => ?_⟩
  rw [answerWrite_mem, bitAt_reverseSpan, if_pos ⟨rfl, by omega, by omega⟩]
  congr 1
  omega

/-! ## Pushes -/

/-- The buffers after `PUSH_BIT b, bit` (R121). -/
def pushed (s : State) (b : BufferIndex) (bit : Bool) : Memory :=
  fillBytes s.mem b (pushedByte s.mem b (s.cfg.nbytesOf b) bit) (s.cfg.nbytesOf b)

theorem exec_pushBit_of_exists {s : State} {b : BufferIndex} (bit : Bool) (hrun : Running s)
    (hb : b.toNat < s.cfg.nbuf) : exec (.pushBit b bit) s = .next (answerWrite (pushed s b bit) s) := by
  rw [exec_pushBit]
  exact issue_of_pass hrun (firstFault_bufferChecks.mpr hb)

theorem bitAt_pushed (s : State) (b b' : BufferIndex) (bit : Bool) (q : Nat) :
    bitAt (pushed s b bit) b' q =
      if b' = b ∧ q < s.cfg.nbits b then (if q + 1 < s.cfg.nbits b then bitAt s.mem b (q + 1) else bit)
      else bitAt s.mem b' q :=
  bitAt_push s.mem b b' (s.cfg.nbytesOf b) bit q

theorem bitAt_pushed_same {s : State} {b : BufferIndex} {q : Nat} (bit : Bool) (hq : q < s.cfg.nbits b) :
    bitAt (pushed s b bit) b q = if q + 1 < s.cfg.nbits b then bitAt s.mem b (q + 1) else bit := by
  rw [bitAt_pushed, if_pos ⟨rfl, hq⟩]

/-- Settles O37: the shift at the level of bits; the whole buffer is the span from position 0. -/
theorem pushBitShiftsTheBuffer : Obligations.PushBitShiftsTheBuffer := by
  intro s b bit hrun hb
  refine ⟨_, exec_pushBit_of_exists bit hrun hb, writesOnly_answerWrite ?_, fun p hp => ?_, fun hbytes => ?_⟩
  · intro b' p hout
    rw [bitAt_pushed, if_neg]
    rintro ⟨rfl, hp⟩
    rcases hout with hne | hlow | hhigh
    · exact hne rfl
    · omega
    · omega
  · rw [answerWrite_mem, bitAt_pushed_same bit (by omega), if_pos hp]
  · have hbits : 0 < s.cfg.nbits b := by
      rw [Config.nbits]
      omega
    rw [answerWrite_mem, bitAt_pushed_same bit (by omega), if_neg (by omega)]

theorem execAll_cons_of_next {i : Instr} {rest : List Instr} {s t : State} (h : exec i s = .next t) :
    execAll (i :: rest) s = execAll rest t := by
  simp only [execAll, h]

/-- After any number of pushes the buffer holds the last `NBITS(b)` bits of what it held followed by what was pushed. -/
theorem execAll_pushes {s : State} {b : BufferIndex} (hrun : Running s) (hb : b.toNat < s.cfg.nbuf)
    (bits : List Bool) :
    ∃ t, execAll (bits.map (Instr.pushBit b)) s = .next t ∧ ∀ p, p < s.cfg.nbits b →
      bitAt t.mem b p = if p + bits.length < s.cfg.nbits b then bitAt s.mem b (p + bits.length)
        else bits.getD (p + bits.length - s.cfg.nbits b) false := by
  induction bits generalizing s with
  | nil => exact ⟨s, rfl, fun p hp => by simp [hp]⟩
  | cons bit rest ih =>
    have hrun' : Running (answerWrite (pushed s b bit) s) := hrun
    obtain ⟨t, ht, hbits⟩ := ih hrun' hb
    refine ⟨t, (execAll_cons_of_next (exec_pushBit_of_exists bit hrun hb)).trans ht, fun p hp => ?_⟩
    rw [hbits p hp, answerWrite_cfg, answerWrite_mem, List.length_cons]
    rcases lt_trichotomy (p + rest.length + 1) (s.cfg.nbits b) with hlt | heq | hgt
    · rw [if_pos (by omega), bitAt_pushed_same bit (by omega), if_pos hlt, if_pos (by omega), Nat.add_assoc]
    · rw [if_pos (by omega), bitAt_pushed_same bit (by omega), if_neg (by omega), if_neg (by omega),
        show p + (rest.length + 1) - s.cfg.nbits b = 0 by omega, List.getD_cons_zero]
    · rw [if_neg (by omega), if_neg (by omega),
        show p + (rest.length + 1) - s.cfg.nbits b = p + rest.length - s.cfg.nbits b + 1 by omega,
        List.getD_cons_succ]

/-- Settles O38: after `NBITS(b)` pushes nothing of the old contents is left. -/
theorem pushedStreamFillsTheBuffer : Obligations.PushedStreamFillsTheBuffer := by
  intro s b bits hrun hb hlen
  obtain ⟨t, ht, hbits⟩ := execAll_pushes hrun hb bits
  refine ⟨t, ht, fun p hp => ?_⟩
  have hp' : p < bits.length := hlen ▸ hp
  rw [hbits p hp, hlen, if_neg (by omega), Nat.add_sub_cancel, List.getD_eq_getElem _ _ hp', List.getElem?_eq_getElem hp']

end Sys2Proof.Proofs
end

section
/-! The pseudo-instructions: `STB` and `LDB` (30_encoding.md R75), `SETF` (42_field_write_copy.md R112). A `SETF` is
followed chunk by chunk: each chunk that fits writes its part of the value, and the parts join. -/

namespace Sys2Proof.Proofs

open Sys2Proof.Machine Sys2Proof.Safety Sys2Proof.Laws

/-! ## One byte -/

/-- A byte outside an aligned byte span has no bit in the span. -/
theorem readByte_of_bitsOutsideSame {m m' : Memory} {b b' : BufferIndex} {k k' : Nat}
    (h : BitsOutsideSame m m' b (8 * k) 8) (hne : b' ≠ b ∨ k' ≠ k) : readByte m' b' k' = readByte m b' k' := by
  refine readByte_eq_of_bits fun p hp => h b' p (hne.imp_right fun hk => ?_)
  omega

theorem readByte_memWrite (m : Memory) (b : BufferIndex) (k : Nat) (byte : Byte) :
    readByte (memWrite m b (8 * k) 8 byte.toNat) b k = byte := by
  refine BitVec.eq_of_toNat_eq ?_
  rw [← memRead_byte, memRead_memWrite_same]
  exact Nat.mod_eq_of_lt byte.isLt

theorem execAll_singleton {i : Instr} {s t : State} (h : exec i s = .next t) : execAll [i] s = .next t := by
  rw [execAll_cons_of_next h, execAll]

/-- Settles O39: both expansions are one command on the aligned span of the byte. -/
theorem storeByteAndLoadByte : Obligations.StoreByteAndLoadByte := by
  intro s b k byte hrun hb hk
  have hspan : SpanIn s b (8 * k) 8 := ⟨hb, by rw [Config.nbits]; omega⟩
  constructor
  · refine ⟨_, execAll_singleton (exec_setBits_of_spanIn byte hrun hspan (by decide) (by decide)), rfl, ⟨rfl, rfl, rfl⟩,
      readByte_memWrite s.mem b k byte, fun b' k' hne => ?_⟩
    exact readByte_of_bitsOutsideSame (memWrite_bitsOutsideSame s.mem b (8 * k) 8 byte.toNat) hne
  · have hread : exec (.getBits8 b (8 * k) 8) s = .next (returns (BitVec.ofNat 64 (memRead s.mem b (8 * k) 8)) s) :=
      readField_of_spanIn hrun hspan (by decide) (by decide)
    rw [memRead_byte, BitVec.ofNat_toNat] at hread
    exact execAll_singleton hread

/-! ## Parts of a field -/

/-- `m'` is `m` with the offsets `lo .. hi-1` of the field at `pos` holding their bits of the value, the first offset the
value's bit `len - 1`. -/
def PartWritten (m m' : Memory) (b : BufferIndex) (pos : Nat) (value : BitVec 64) (len lo hi : Nat) : Prop :=
  ∀ b' q, bitAt m' b' q =
    if b' = b ∧ pos + lo ≤ q ∧ q < pos + hi then value.getLsbD (pos + len - 1 - q) else bitAt m b' q

theorem PartWritten.refl (m : Memory) (b : BufferIndex) (pos : Nat) (value : BitVec 64) (len o : Nat) :
    PartWritten m m b pos value len o o := by
  intro b' q
  rw [if_neg (by omega)]

/-- Two parts that meet are one. -/
theorem PartWritten.trans {m m' m'' : Memory} {b : BufferIndex} {pos : Nat} {value : BitVec 64} {len lo mid hi : Nat}
    (h : PartWritten m m' b pos value len lo mid) (h' : PartWritten m' m'' b pos value len mid hi) (hlo : lo ≤ mid)
    (hhi : mid ≤ hi) : PartWritten m m'' b pos value len lo hi := by
  intro b' q
  rw [h', h]
  by_cases hb : b' = b
  · by_cases hsecond : pos + mid ≤ q ∧ q < pos + hi
    · rw [if_pos ⟨hb, hsecond⟩, if_pos ⟨hb, by omega, by omega⟩]
    · rw [if_neg fun hin => hsecond hin.2]
      by_cases hfirst : pos + lo ≤ q ∧ q < pos + mid
      · rw [if_pos ⟨hb, hfirst⟩, if_pos ⟨hb, by omega, by omega⟩]
      · rw [if_neg fun hin => hfirst hin.2, if_neg (by omega)]
  · simp only [hb, false_and, if_false]

theorem PartWritten.bitsOutsideSame {m m' : Memory} {b : BufferIndex} {pos : Nat} {value : BitVec 64} {len hi : Nat}
    (h : PartWritten m m' b pos value len 0 hi) : BitsOutsideSame m m' b pos hi :=
  bitsOutsideSame_of_ite h

/-- The first `hi` offsets read as the value without its lowest `len - hi` bits. -/
theorem PartWritten.memRead {m m' : Memory} {b : BufferIndex} {pos : Nat} {value : BitVec 64} {len hi : Nat}
    (h : PartWritten m m' b pos value len 0 hi) (hle : hi ≤ len) :
    memRead m' b pos hi = value.toNat / 2 ^ (len - hi) % 2 ^ hi := by
  refine Nat.eq_of_testBit_eq fun i => ?_
  rw [memRead_testBit, Nat.testBit_mod_two_pow, Nat.testBit_div_two_pow]
  by_cases hi' : i < hi
  · rw [h, if_pos ⟨rfl, by omega, by omega⟩, show pos + len - 1 - (pos + hi - 1 - i) = i + (len - hi) by omega]
    rfl
  · simp [hi']

/-! ## One chunk of `SETF` -/

/-- The width of the chunk at the offset `o` (R112). -/
def chunkWidth (len o : Nat) : Nat := min 8 (len - o)

/-- The operand of the chunk at the offset `o` (R112). -/
def chunkValue (value : BitVec 64) (len o : Nat) : Byte :=
  BitVec.ofNat 8 (value.toNat / 2 ^ (len - o - chunkWidth len o) % 2 ^ chunkWidth len o)

theorem chunkWidth_bounds {len o : Nat} (h : o < len) :
    1 ≤ chunkWidth len o ∧ chunkWidth len o ≤ 8 ∧ o + chunkWidth len o ≤ len := by
  unfold chunkWidth
  omega

theorem setfFrom_succ {len o : Nat} (b : BufferIndex) (pos : Nat) (value : BitVec 64) (chunks : Nat) (h : o < len) :
    setfFrom b pos value len (chunks + 1) o =
      .setBits b (pos + o) (chunkValue value len o) (chunkWidth len o) ::
        setfFrom b pos value len chunks (o + chunkWidth len o) := by
  rw [setfFrom, if_pos h]
  rfl

theorem setfFrom_of_done {len o : Nat} (b : BufferIndex) (pos : Nat) (value : BitVec 64) (chunks : Nat)
    (h : len ≤ o) : setfFrom b pos value len chunks o = [] := by
  cases chunks with
  | zero => rfl
  | succ chunks => rw [setfFrom, if_neg (by omega)]

/-- Eight bits hold a chunk, so its operand has the bits of the value that R112 takes. -/
theorem chunkValue_testBit {len o i : Nat} (value : BitVec 64) (hi : i < chunkWidth len o) :
    (chunkValue value len o).toNat.testBit i = value.getLsbD (i + (len - o - chunkWidth len o)) := by
  have hwidth : chunkWidth len o ≤ 8 := Nat.min_le_left _ _
  rw [chunkValue, BitVec.toNat_ofNat, Nat.testBit_mod_two_pow, Nat.testBit_mod_two_pow, Nat.testBit_div_two_pow,
    decide_eq_true hi, decide_eq_true (by omega : i < 8), Bool.true_and, Bool.true_and]
  rfl

/-- The memory after the chunk at the offset `o`. -/
def chunkWritten (m : Memory) (b : BufferIndex) (pos : Nat) (value : BitVec 64) (len o : Nat) : Memory :=
  memWrite m b (pos + o) (chunkWidth len o) (chunkValue value len o).toNat

theorem partWritten_chunkWritten {len o : Nat} (m : Memory) (b : BufferIndex) (pos : Nat) (value : BitVec 64)
    (h : o < len) :
    PartWritten m (chunkWritten m b pos value len o) b pos value len o (o + chunkWidth len o) := by
  obtain ⟨hpos, _, hle⟩ := chunkWidth_bounds h
  intro b' q
  rw [chunkWritten, bitAt_memWrite, Nat.add_assoc]
  by_cases hin : b' = b ∧ pos + o ≤ q ∧ q < pos + (o + chunkWidth len o)
  · obtain ⟨_, hlow, hhigh⟩ := id hin
    rw [if_pos hin, if_pos hin, chunkValue_testBit value (by omega)]
    congr 1
    omega
  · rw [if_neg hin, if_neg hin]

/-- A chunk that fits is written, and the rest of the expansion runs on what it left. -/
theorem execAll_setfFrom_chunk {s : State} {b : BufferIndex} {pos : Nat} {len o : Nat} (value : BitVec 64)
    (chunks : Nat) (hrun : Running s) (ho : o < len) (hspan : SpanIn s b (pos + o) (chunkWidth len o)) :
    execAll (setfFrom b pos value len (chunks + 1) o) s =
      execAll (setfFrom b pos value len chunks (o + chunkWidth len o))
        (answerWrite (chunkWritten s.mem b pos value len o) s) := by
  obtain ⟨hpos, hmax, _⟩ := chunkWidth_bounds ho
  rw [setfFrom_succ b pos value chunks ho]
  exact execAll_cons_of_next (exec_setBits_of_spanIn _ hrun hspan hpos hmax)

/-! ## A `SETF` in range -/

theorem length_setfFrom {len o : Nat} (b : BufferIndex) (pos : Nat) (value : BitVec 64) (chunks : Nat)
    (h : len - o ≤ 8 * chunks) : (setfFrom b pos value len chunks o).length = (len - o + 7) / 8 := by
  induction chunks generalizing o with
  | zero => rw [setfFrom_of_done b pos value 0 (by omega), List.length_nil]; omega
  | succ chunks ih =>
    rcases Nat.lt_or_ge o len with ho | ho
    · rw [setfFrom_succ b pos value chunks ho, List.length_cons, ih (by unfold chunkWidth; omega)]
      unfold chunkWidth
      omega
    · rw [setfFrom_of_done b pos value _ ho, List.length_nil]
      omega

/-- The chunks from the offset `o` on write the rest of the field. -/
theorem execAll_setfFrom {s : State} {b : BufferIndex} {pos len o : Nat} (value : BitVec 64) {chunks : Nat}
    (hrun : Running s) (hspan : SpanIn s b pos len) (ho : o ≤ len) (hchunks : len - o ≤ 8 * chunks) :
    ∃ t, execAll (setfFrom b pos value len chunks o) s = .next t ∧ SameRegisters s t ∧
      PartWritten s.mem t.mem b pos value len o len := by
  induction chunks generalizing s o with
  | zero =>
    obtain rfl : o = len := by omega
    exact ⟨s, rfl, ⟨rfl, rfl, rfl⟩, .refl _ _ _ _ _ _⟩
  | succ chunks ih =>
    rcases Nat.lt_or_ge o len with hlt | hge
    · obtain ⟨hpos, _, hle⟩ := chunkWidth_bounds hlt
      have hchunk : SpanIn s b (pos + o) (chunkWidth len o) := by
        obtain ⟨hb, hrange⟩ := hspan
        exact ⟨hb, by omega⟩
      have hleft : len - (o + chunkWidth len o) ≤ 8 * chunks := by
        unfold chunkWidth
        omega
      have hrun' : Running (answerWrite (chunkWritten s.mem b pos value len o) s) := hrun
      obtain ⟨t, ht, hregs, hpart⟩ := ih hrun' hspan hle hleft
      exact ⟨t, (execAll_setfFrom_chunk value chunks hrun hlt hchunk).trans ht, hregs,
        (partWritten_chunkWritten s.mem b pos value hlt).trans hpart (by omega) hle⟩
    · obtain rfl : o = len := by omega
      rw [setfFrom_of_done b pos value _ (Nat.le_refl _)]
      exact ⟨s, rfl, ⟨rfl, rfl, rfl⟩, .refl _ _ _ _ _ _⟩

/-- The whole expansion writes the whole field. -/
theorem execAll_setf {s : State} {b : BufferIndex} {pos len : Nat} (value : BitVec 64) (hrun : Running s)
    (hspan : SpanIn s b pos len) :
    ∃ t, execAll (expandPseudo (.setf b pos value len)) s = .next t ∧ SameRegisters s t ∧
      PartWritten s.mem t.mem b pos value len 0 len :=
  execAll_setfFrom value hrun hspan (Nat.zero_le _) (by omega)

/-- Settles O40: the number of chunks, and the field from all its parts. -/
theorem setfWritesTheField : Obligations.SetfWritesTheField := by
  intro s b pos value len hrun hspan _ _
  refine ⟨length_setfFrom b pos value _ (by omega), ?_⟩
  obtain ⟨t, ht, hregs, hpart⟩ := execAll_setf value hrun hspan
  refine ⟨t, ht, ?_, hregs, hpart.bitsOutsideSame⟩
  rw [hpart.memRead (Nat.le_refl _), Nat.sub_self, pow_zero, Nat.div_one]

/-- Settles O42: the value read has the old bits of the span, and `SETF` puts each back at its position. -/
theorem readThenSetfRestoresEveryByte : Obligations.ReadThenSetfRestoresEveryByte := by
  intro s b pos len hrun hspan hpos hmax
  have hrun' : Running (returns (BitVec.ofNat 64 (memRead s.mem b pos len)) s) := hrun
  obtain ⟨u, hu, _, hpart⟩ := execAll_setf (BitVec.ofNat 64 (memRead s.mem b pos len)) hrun' hspan
  refine ⟨_, _, u, readField_of_spanIn hrun hspan hpos hmax, rfl, readField_of_spanIn hrun hspan hpos,
    readField_of_spanIn hrun hspan hpos, readField_of_spanIn hrun hspan hpos, hu, read_eq_of_bits fun b' q => ?_⟩
  rw [hpart b' q]
  by_cases hin : b' = b ∧ pos + 0 ≤ q ∧ q < pos + len
  · obtain ⟨rfl, hlow, hhigh⟩ := id hin
    rw [if_pos hin, BitVec.getLsbD_ofNat, memRead_testBit, decide_eq_true (by omega), decide_eq_true (by omega),
      Bool.true_and, Bool.true_and]
    congr 1
    omega
  · rw [if_neg hin]
    rfl

/-! ## A `SETF` past the end -/

/-- A halted engine answers a list of commands without a change but to the response (R173). -/
theorem execAll_of_halted {s : State} (l : List Instr) (h : halted s = true) :
    ∃ t, execAll l s = .next t ∧ t.mem = s.mem ∧ SameRegisters s t := by
  induction l generalizing s with
  | nil => exact ⟨s, rfl, rfl, rfl, rfl, rfl⟩
  | cons i rest ih =>
    have hhalt : halted (answerHalted s) = true := h
    have hexec : exec i s = .next (answerHalted s) := by
      rcases exec_cases i s with ⟨_, hnext⟩ | ⟨hrun, _⟩ | ⟨hrun, _⟩
      · exact hnext
      · cases h.symm.trans hrun
      · cases h.symm.trans hrun
    obtain ⟨t, ht, hmem, hregs⟩ := ih hhalt
    exact ⟨t, (execAll_cons_of_next hexec).trans ht, hmem, hregs⟩

/-- A chunk that does not fit raises OUT_OF_RANGE, and the rest of the expansion changes nothing. -/
theorem execAll_setfFrom_outside {s : State} {b : BufferIndex} {pos len o : Nat} (value : BitVec 64) (chunks : Nat)
    (hrun : Running s) (hb : b.toNat < s.cfg.nbuf) (ho : o < len)
    (hout : s.cfg.nbits b < pos + o + chunkWidth len o) :
    ∃ t, execAll (setfFrom b pos value len (chunks + 1) o) s = .next t ∧ t.cfg = s.cfg ∧ t.pending = s.pending ∧
      t.fsr = 0x8507 ∧ t.mem = s.mem := by
  obtain ⟨hpos, hmax, _⟩ := chunkWidth_bounds ho
  have hraise : Raises .outOfRange (.setBits b (pos + o) (chunkValue value len o) (chunkWidth len o)) s := by
    refine (raises_outOfRange_iff hrun).mpr ⟨Nat.not_le.mpr hout, by simpa [buffersOf] using hb, id, ?_⟩
    rintro (hzero | hlong) <;> omega
  have hfsr : (faulted (causeCode .outOfRange) (opcodeByte .setBits) s).fsr = 0x8507 := by
    simp only [faulted]
    decide
  have hhalt : halted (faulted (causeCode .outOfRange) (opcodeByte .setBits) s) = true := by
    rw [halted, hfsr]
    decide
  obtain ⟨t, ht, hmem, hcfg, hfsr', hpending⟩ :=
    execAll_of_halted (setfFrom b pos value len chunks (o + chunkWidth len o)) hhalt
  rw [setfFrom_succ b pos value chunks ho]
  exact ⟨t, (execAll_cons_of_next hraise).trans ht, hcfg, hpending, hfsr'.trans hfsr, hmem⟩

/-- Where `whole` chunks of eight bits fit from the offset `o` on and the next chunk does not, those are written. -/
theorem execAll_setfFrom_pastEnd {s : State} {b : BufferIndex} {pos len o whole : Nat} (value : BitVec 64)
    {chunks : Nat} (hrun : Running s) (hb : b.toNat < s.cfg.nbuf) (hend : s.cfg.nbits b < pos + len)
    (hfit : whole = 0 ∨ pos + o + 8 * whole ≤ s.cfg.nbits b) (hnext : s.cfg.nbits b < pos + o + 8 * (whole + 1))
    (ho : o + 8 * whole < len) (hchunks : len - o ≤ 8 * chunks) :
    ∃ t, execAll (setfFrom b pos value len chunks o) s = .next t ∧ t.cfg = s.cfg ∧ t.pending = s.pending ∧
      t.fsr = 0x8507 ∧ PartWritten s.mem t.mem b pos value len o (o + 8 * whole) := by
  obtain ⟨chunks, rfl⟩ : ∃ n, chunks = n + 1 := ⟨chunks - 1, by omega⟩
  induction whole generalizing s o chunks with
  | zero =>
    have hout : s.cfg.nbits b < pos + o + chunkWidth len o := by
      unfold chunkWidth
      omega
    obtain ⟨t, ht, hcfg, hpending, hfsr, hmem⟩ := execAll_setfFrom_outside value chunks hrun hb (by omega) hout
    exact ⟨t, ht, hcfg, hpending, hfsr, hmem ▸ .refl _ _ _ _ _ _⟩
  | succ whole ih =>
    have hwidth : chunkWidth len o = 8 := by
      unfold chunkWidth
      omega
    have hlt : o < len := by omega
    have hspan : SpanIn s b (pos + o) (chunkWidth len o) := ⟨hb, by omega⟩
    have hrun' : Running (answerWrite (chunkWritten s.mem b pos value len o) s) := hrun
    obtain ⟨chunks, rfl⟩ : ∃ n, chunks = n + 1 := ⟨chunks - 1, by omega⟩
    have hfit' : pos + (o + 8) + 8 * whole ≤ s.cfg.nbits b := by omega
    have hnext' : s.cfg.nbits b < pos + (o + 8) + 8 * (whole + 1) := by omega
    obtain ⟨t, ht, hcfg, hpending, hfsr, hpart⟩ :=
      ih hrun' hb hend (.inr hfit') hnext' (by omega) chunks (by omega)
    have hfirst := partWritten_chunkWritten s.mem b pos value hlt
    rw [hwidth] at hfirst
    refine ⟨t, ?_, hcfg, hpending, hfsr, ?_⟩
    · rw [execAll_setfFrom_chunk value (chunks + 1) hrun hlt hspan, hwidth]
      exact ht
    · rw [show o + 8 * (whole + 1) = o + 8 + 8 * whole by ring]
      exact hfirst.trans hpart (by omega) (by omega)

/-- Settles O41: `(NBITS(b) - pos) / 8` chunks fit, none where the field starts past the end. -/
theorem setfPastTheEndKeepsItsEarlierChunks : Obligations.SetfPastTheEndKeepsItsEarlierChunks := by
  intro s b pos value len hrun hb hpos _ hend
  generalize hwhole : (s.cfg.nbits b - pos) / 8 = whole
  obtain ⟨t, ht, hcfg, hpending, hfsr, hpart⟩ :=
    execAll_setfFrom_pastEnd (o := 0) (whole := whole) (chunks := (len + 7) / 8) value hrun hb hend (by omega) (by omega)
      (by omega) (by omega)
  rw [Nat.zero_add] at hpart
  exact ⟨t, ht, hcfg, hpending, hfsr, hpart.memRead (by omega), hpart.bitsOutsideSame⟩

end Sys2Proof.Proofs
end

section
/-! Parity (44_parity.md): the bit `GEN_PARITY32` returns, the two laws of a generated bit, and the blocks of
`CHECK_PARITY`. -/

namespace Sys2Proof.Proofs

open Sys2Proof.Machine Sys2Proof.Safety Sys2Proof.Laws

/-! ## The generated bit -/

theorem exec_genParity32_of_running {s : State} (v : BitVec 32) (kind : ParityKind) (hrun : Running s) :
    exec (.genParity32 v kind) s = .next (returns (BitVec.ofNat 64 (parityBit s.cfg v.toNat kind)) s) := by
  rw [exec_genParity32]
  exact issue_of_pass hrun rfl

/-- The exclusive or of two bits is their sum mod 2. -/
theorem mod_two_xor {n p : Nat} (hp : p < 2) : (n % 2) ^^^ p = (n + p) % 2 := by
  have hn : n % 2 < 2 := Nat.mod_lt _ (by decide)
  rw [Nat.add_mod, Nat.mod_eq_of_lt hp]
  generalize n % 2 = r at hn ⊢
  interval_cases r <;> interval_cases p <;> rfl

theorem passResidue_lt (c : Config) (odd : Bool) : passResidue c odd < 2 := by
  cases odd
  · exact passEven_lt c
  · exact passOdd_lt c

/-- The generated bit of a counting kind brings the number of ones to the passing residue (R132). -/
theorem parityBit_counting (c : Config) (v : Nat) (odd : Bool) :
    parityBit c v (if odd then .odd else .even) = (popcount v 32 + passResidue c odd) % 2 := by
  rw [← mod_two_xor (passResidue_lt c odd)]
  cases odd <;> rfl

theorem parityBit_lt (c : Config) (v : Nat) (kind : ParityKind) : parityBit c v kind < 2 := by
  cases kind with
  | even => exact (parityBit_counting c v false).trans_lt (Nat.mod_lt _ (by decide))
  | odd => exact (parityBit_counting c v true).trans_lt (Nat.mod_lt _ (by decide))
  | always0 => exact Nat.zero_lt_two
  | always1 => exact Nat.one_lt_two

theorem exec_genParity32_counting {s : State} (v : BitVec 32) (odd : Bool) (hrun : Running s) :
    exec (.genParity32 v (if odd then .odd else .even)) s =
      .next (returns (BitVec.ofNat 64 ((onesOf v + passResidue s.cfg odd) % 2)) s) := by
  rw [exec_genParity32_of_running v _ hrun, parityBit_counting, popcount_toNat]

/-- Settles O44: the two counting kinds by the count, the two markers as they are. -/
theorem genParityReturnsTheBit : Obligations.GenParityReturnsTheBit := by
  intro s v hrun
  exact ⟨exec_genParity32_counting v false hrun, exec_genParity32_counting v true hrun,
    exec_genParity32_of_running v .always0 hrun, exec_genParity32_of_running v .always1 hrun⟩

/-! ## A value followed by its generated bit -/

/-- A group of `w` data bits followed by its generated bit passes as a group of `w + 1`, for all four kinds. -/
theorem passes_append_parityBit (c : Config) {v w : Nat} (kind : ParityKind) (hv : v < 2 ^ w) (hw : w ≤ 31) :
    passes c (2 * v + parityBit c v kind) (w + 1) kind = true := by
  have hcount : ∀ odd : Bool, passes c (2 * v + parityBit c v (if odd then .odd else .even)) (w + 1)
      (if odd then .odd else .even) = true := by
    intro odd
    have hres := passResidue_lt c odd
    have hpop : popcount v 32 = popcount v w := popcount_of_lt hv (by omega)
    rw [passes_counting, popcount_append v _ w (parityBit_lt ..), parityBit_counting, hpop, decide_eq_true_iff]
    omega
  cases kind with
  | even => exact hcount false
  | odd => exact hcount true
  | always0 => simp [passes, parityBit]
  | always1 => simp [passes, parityBit]

/-- Settles O45: below `2^31` the appended value fits 32 bits, and it passes as a group of 32. -/
theorem generatedParityPassesTheTest : Obligations.GeneratedParityPassesTheTest := by
  intro s v odd hrun hv
  refine ⟨_, exec_genParity32_of_running v _ hrun, ?_⟩
  have hbit := parityBit_lt s.cfg v.toNat (if odd then .odd else .even)
  have hvalue : (BitVec.ofNat 32 (2 * v.toNat +
      (BitVec.ofNat 64 (parityBit s.cfg v.toNat (if odd then .odd else .even))).toNat)).toNat =
      2 * v.toNat + parityBit s.cfg v.toNat (if odd then .odd else .even) := by
    rw [BitVec.toNat_ofNat, BitVec.toNat_ofNat, Nat.mod_eq_of_lt (by omega : _ < 2 ^ 64), Nat.mod_eq_of_lt (by omega)]
  rw [exec_testParity32_of_kind _ hrun (badTestKind_counting odd), hvalue,
    passes_append_parityBit s.cfg _ hv (Nat.le_refl 31)]
  rfl

/-! ## Blocks -/

theorem exec_checkParity_of_spanIn {s : State} {b : BufferIndex} {pos len bsz : Nat} (kind : ParityKind)
    (hrun : Running s) (hspan : SpanIn s b pos len) (hpos : 1 ≤ bsz) (hmax : bsz ≤ 32) :
    exec (.checkParity b pos len kind bsz) s =
      .next (answerBool (allBlocksPass s.cfg s.mem b pos bsz kind (len / bsz)) s) := by
  rw [exec_checkParity]
  exact issue_of_sizedSpan hrun hspan hpos hmax

theorem allBlocksPass_iff {c : Config} {m : Memory} {b : BufferIndex} {pos bsz n : Nat} {kind : ParityKind} :
    allBlocksPass c m b pos bsz kind n = true ↔
      ∀ i, i < n → passes c (memRead m b (pos + i * bsz) bsz) bsz kind = true := by
  simp [allBlocksPass]

theorem toNat_decide_eq_one {p : Nat} (hp : p < 2) : (decide (p = 1)).toNat = p := by
  interval_cases p <;> rfl

/-- The last position holds the generated bit and the others are as they were, so the block is the appended group. -/
theorem memRead_setBitAt_last (m : Memory) (b : BufferIndex) (pos w : Nat) (p : Bool) :
    memRead (setBitAt m b (pos + w) p) b pos (w + 1) = 2 * memRead m b pos w + p.toNat := by
  have hdata : memRead (setBitAt m b (pos + w) p) b pos w = memRead m b pos w :=
    memRead_congr fun i hi => bitAt_setBitAt_other _ _ (.inr (by omega))
  rw [memRead_append, hdata, bitAt_setBitAt_same]

/-- Settles O46: the span is one block, its data bits followed by the bit generated for them. -/
theorem generatedBlockPassesTheCheck : Obligations.GeneratedBlockPassesTheCheck := by
  intro s b pos w kind hrun hspan hpos hmax
  obtain ⟨n, rfl⟩ : ∃ n, w = n + 1 := ⟨w - 1, by omega⟩
  obtain ⟨hb, hrange⟩ := id hspan
  rw [Nat.add_sub_cancel, ← Nat.add_assoc, Nat.add_sub_cancel]
  have hlt : memRead s.mem b pos n < 2 ^ n := memRead_lt ..
  have hvalue : (BitVec.ofNat 32 (memRead s.mem b pos n)).toNat = memRead s.mem b pos n :=
    Nat.mod_eq_of_lt (Nat.lt_of_lt_of_le hlt (Nat.pow_le_pow_right (by decide) (by omega)))
  have hbit : (decide (parityBit s.cfg (memRead s.mem b pos n) kind = 1)).toNat =
      parityBit s.cfg (memRead s.mem b pos n) kind := toNat_decide_eq_one (parityBit_lt ..)
  generalize hp : decide (parityBit s.cfg (memRead s.mem b pos n) kind = 1) = p at hbit
  have hrun' : Running (answerWrite (setBitAt s.mem b (pos + n) p) s) := hrun
  have hspan' : SpanIn (answerWrite (setBitAt s.mem b (pos + n) p) s) b pos (n + 1) := hspan
  refine ⟨p, _, _, ?_, exec_setBit_of_spanIn p hrun ⟨hb, by omega⟩,
    exec_checkParity_of_spanIn kind hrun' hspan' hpos hmax, ?_⟩
  · rw [exec_genParity32_of_running _ _ hrun, hvalue, hbit]
  · have hpass : allBlocksPass s.cfg (setBitAt s.mem b (pos + n) p) b pos (n + 1) kind ((n + 1) / (n + 1)) = true := by
      refine allBlocksPass_iff.mpr fun i hi => ?_
      obtain rfl : i = 0 := by
        rw [Nat.div_self (by omega)] at hi
        omega
      rw [Nat.zero_mul, Nat.add_zero, memRead_setBitAt_last, hbit]
      exact passes_append_parityBit s.cfg kind hlt (by omega)
    rw [answerBool_rsp, answerWrite_cfg, answerWrite_mem, hpass]
    rfl

/-- The ones of a field are the ones of its span. -/
theorem popcount_memRead (m : Memory) (b : BufferIndex) (p n : Nat) :
    popcount (memRead m b p n) n = onesInSpan m b p n := by
  induction n with
  | zero => rfl
  | succ n ih =>
    rw [memRead_append, popcount_append _ _ _ (Bool.toNat_lt _), ih, onesInSpan, onesInSpan, Finset.range_add_one,
      Finset.filter_insert]
    cases hbit : bitAt m b (p + n) <;> simp

/-- The marker of a block is its last bit (R130). -/
theorem memRead_testBit_zero {n : Nat} (m : Memory) (b : BufferIndex) (p : Nat) (hn : 1 ≤ n) :
    (memRead m b p n).testBit 0 = bitAt m b (p + n - 1) := by
  rw [memRead_testBit, decide_eq_true (by omega), Bool.true_and, Nat.sub_zero]

theorem allBlocksPass_counting {c : Config} {m : Memory} {b : BufferIndex} {pos bsz n : Nat} (odd : Bool) :
    allBlocksPass c m b pos bsz (if odd then .odd else .even) n = true ↔
      ∀ i, i < n → onesInSpan m b (pos + i * bsz) bsz % 2 = passResidue c odd := by
  simp only [allBlocksPass_iff, passes_counting, popcount_memRead, decide_eq_true_eq]

/-- Settles O47: the counting kinds by the ones of each block, the marker kinds by its last bit. -/
theorem checkParityTestsEveryWholeBlock : Obligations.CheckParityTestsEveryWholeBlock := by
  intro s b pos len bsz hrun hspan hpos hmax
  refine ⟨fun kind => allBlocksPass s.cfg s.mem b pos bsz kind (len / bsz),
    fun kind => exec_checkParity_of_spanIn kind hrun hspan hpos hmax,
    allBlocksPass_counting false, allBlocksPass_counting true, ?_, ?_⟩
  · simp only [allBlocksPass_iff, passes, memRead_testBit_zero _ _ _ hpos, beq_iff_eq]
  · simp only [allBlocksPass_iff, passes, memRead_testBit_zero _ _ _ hpos, beq_iff_eq]

end Sys2Proof.Proofs
end

section
/-! The CRC (45_crc.md R147; the algorithm is general knowledge of the spec, log 12): its commands, its form on numbers,
and what R147 and R152 say follows from it. Bytes are taken as their bits, most significant first, and a register step
with a zero input bit is linear. -/

namespace Sys2Proof.Proofs

open Sys2Proof.Machine Sys2Proof.Safety Sys2Proof.Laws

/-! ## The CRC on numbers -/

theorem reflect_toNat {w : Nat} (on : Bool) (v : BitVec w) :
    (reflect on v).toNat = if on then revNum w v.toNat else v.toNat := by
  cases on
  · rfl
  · exact reverse_toNat v

theorem crcByte_toNat {w : Nat} (poly crc : BitVec w) (refin : Bool) (d : Byte) :
    (crcByte poly crc (reflect refin d)).toNat = crcByteNum w poly.toNat refin crc.toNat d.toNat := by
  rw [crcByte_eq_foldl, bitsOfByte, List.foldl_map, crcByteNum, ← reflect_toNat]
  exact (List.foldl_hom BitVec.toNat (g₁ := fun c j => crcBit poly c ((reflect refin d).getLsbD j))
    fun c j => (crcBit_toNat poly c _).symm).symm

theorem crcValue_toNat {w : Nat} (data : List Byte) (poly init : BitVec w) (refin refout : Bool) (xorout : BitVec w) :
    (crcValue data poly init refin refout xorout).toNat =
      crcNum w (data.map BitVec.toNat) poly.toNat init.toNat refin refout xorout.toNat := by
  rw [crcValue, BitVec.toNat_xor, reflect_toNat, crcNum, List.foldl_map,
    List.foldl_hom BitVec.toNat fun c d => (crcByte_toNat poly c refin d).symm]

theorem dataNums_eq_map (m : Memory) (b : BufferIndex) (off cnt : Nat) :
    dataNums m b off cnt = (bytesAt m b off cnt).map BitVec.toNat := by
  rw [dataNums, bytesAt, List.map_map]
  rfl

/-! ## The commands -/

/-- A command on bytes in range has its effect (R146). -/
theorem issue_of_bytesIn {o : Opcode} {effect : State → State} {s : State} {b : BufferIndex} {off cnt : Nat}
    (hrun : Running s) (hbytes : BytesIn s b off cnt) : issue o (crcChecks s b off cnt) effect s = .next (effect s) :=
  issue_of_pass hrun (firstFault_crcChecks.mpr hbytes)

/-- The zero-extended CRC of the bytes is the number the algorithm computes from their numbers. -/
theorem setWidth_crcValue {w : Nat} (m : Memory) (b : BufferIndex) (off cnt : Nat) (poly init xorout : BitVec w)
    (refin refout : Bool) :
    (crcValue (bytesAt m b off cnt) poly init refin refout xorout).setWidth 64 =
      BitVec.ofNat 64 (crcNum w (dataNums m b off cnt) poly.toNat init.toNat refin refout xorout.toNat) := by
  rw [dataNums_eq_map, ← crcValue_toNat, BitVec.ofNat_toNat]

/-- Settles O48: both generators return the CRC of the bytes, which is the algorithm on numbers. -/
theorem crcReturnsTheChecksum : Obligations.CrcReturnsTheChecksum := by
  constructor
  · intro s b off cnt poly init xorout refin refout hrun hbytes
    rw [exec_crc8, issue_of_bytesIn hrun hbytes, setWidth_crcValue, answerValue_eq_returns]
  · intro s b off cnt poly init xorout refin refout hrun hbytes
    rw [exec_crc16, issue_of_bytesIn hrun hbytes, setWidth_crcValue, answerValue_eq_returns]

/-- Settles O49: generator and checker compute one value. -/
theorem crcCheckersCompareWithTheGenerator : Obligations.CrcCheckersCompareWithTheGenerator := by
  constructor
  · intro s b off cnt poly init xorout expect refin refout hrun hbytes
    refine ⟨crcValue (bytesAt s.mem b off cnt) poly init refin refout xorout, ?_, ?_⟩
    · rw [exec_crc8, issue_of_bytesIn hrun hbytes, answerValue_eq_returns]
    · rw [exec_crc8Chk, issue_of_bytesIn hrun hbytes, answerValue_eq_returns]
  · intro s b off cnt poly init xorout expect refin refout hrun hbytes
    refine ⟨crcValue (bytesAt s.mem b off cnt) poly init refin refout xorout, ?_, ?_⟩
    · rw [exec_crc16, issue_of_bytesIn hrun hbytes, answerValue_eq_returns]
    · rw [exec_crc16Chk, issue_of_bytesIn hrun hbytes, answerValue_eq_returns]

/-! ## The register fed with bits -/

/-- Without reflection and final exclusive or, the CRC is the register fed with the bits of the data. -/
theorem crcValue_plain {w : Nat} (data : List Byte) (poly init : BitVec w) :
    crcValue data poly init false false 0 = (data.flatMap bitsOfByte).foldl (crcBit poly) init := by
  rw [List.foldl_flatMap]
  exact BitVec.xor_zero

/-- A register step with input 0: the shift, and the polynomial where the top bit leaves. -/
def shiftOut {w : Nat} (poly reg : BitVec w) : BitVec w := crcBit poly reg false

theorem shiftOut_eq {w : Nat} (poly reg : BitVec w) :
    shiftOut poly reg = (reg <<< 1) ^^^ (if reg.getLsbD (w - 1) then poly else 0) := by
  unfold shiftOut crcBit
  cases reg.getLsbD (w - 1) <;> simp

theorem shiftOut_xor {w : Nat} (poly x y : BitVec w) :
    shiftOut poly (x ^^^ y) = shiftOut poly x ^^^ shiftOut poly y := by
  have hpoly : ∀ a b : Bool, (if (a ^^ b) = true then poly else 0) =
      (if a = true then poly else 0) ^^^ (if b = true then poly else 0) := by
    intro a b
    cases a <;> cases b <;> simp
  simp only [shiftOut_eq, BitVec.shiftLeft_xor_distrib, BitVec.getLsbD_xor, hpoly]
  ac_rfl

theorem iterate_shiftOut_xor {w : Nat} (poly x y : BitVec w) (n : Nat) :
    (shiftOut poly)^[n] (x ^^^ y) = (shiftOut poly)^[n] x ^^^ (shiftOut poly)^[n] y := by
  induction n with
  | zero => rfl
  | succ n ih => simp only [Function.iterate_succ_apply', ih, shiftOut_xor]

/-- An input bit as the lowest bit of a register. -/
def lowBit (w : Nat) (b : Bool) : BitVec w := BitVec.ofNat w b.toNat

theorem getLsbD_lowBit {n : Nat} (b : Bool) (i : Nat) :
    (lowBit (n + 1) b).getLsbD i = (decide (i = 0) && b) := by
  cases b <;> simp [lowBit, BitVec.getLsbD_one]

/-- The textbook step is the shift with the input bit entering at the low end. -/
theorem textbookBit_eq {w : Nat} (poly reg : BitVec w) (b : Bool) :
    textbookBit poly reg b = shiftOut poly reg ^^^ lowBit w b := by
  rw [shiftOut_eq, textbookBit, lowBit]
  cases reg.getLsbD (w - 1) <;> simp
  ac_rfl

/-- The step of R147 is the shift with the input bit added at the top. -/
theorem crcBit_eq_shiftOut {n : Nat} (poly crc : BitVec (n + 1)) (b : Bool) :
    crcBit poly crc b = shiftOut poly (crc ^^^ lowBit (n + 1) b <<< n) := by
  have htop : (lowBit (n + 1) b <<< n).getLsbD n = b := by
    rw [BitVec.getLsbD_shiftLeft, getLsbD_lowBit, Nat.sub_self]
    simp
  have hout : (lowBit (n + 1) b <<< n) <<< 1 = 0#(n + 1) := by
    rw [← BitVec.shiftLeft_add, BitVec.shiftLeft_eq_zero (Nat.le_refl _)]
  rw [shiftOut_eq, BitVec.shiftLeft_xor_distrib, hout, BitVec.xor_zero, BitVec.getLsbD_xor, Nat.add_sub_cancel, htop,
    crcBit, Nat.add_sub_cancel]
  cases crc.getLsbD n <;> cases b <;> simp

/-- An input bit at the low end moves up unchanged until it reaches the top. -/
theorem iterate_shiftOut_lowBit {n k : Nat} (poly : BitVec (n + 1)) (b : Bool) (hk : k ≤ n) :
    (shiftOut poly)^[k] (lowBit (n + 1) b) = lowBit (n + 1) b <<< k := by
  induction k with
  | zero => rw [Function.iterate_zero_apply, BitVec.shiftLeft_zero]
  | succ k ih =>
    have htop : (lowBit (n + 1) b <<< k).getLsbD n = false := by
      rw [BitVec.getLsbD_shiftLeft, getLsbD_lowBit, decide_eq_false (by omega : ¬ n - k = 0)]
      simp
    rw [Function.iterate_succ_apply', ih (by omega), shiftOut_eq, Nat.add_sub_cancel, htop, BitVec.shiftLeft_add]
    exact BitVec.xor_zero

/-- One bit commutes with the passage from the textbook register to the register of R147, which is `w` zero bits. -/
theorem crcBit_iterate_shiftOut {w : Nat} (hw : 1 ≤ w) (poly reg : BitVec w) (b : Bool) :
    crcBit poly ((shiftOut poly)^[w] reg) b = (shiftOut poly)^[w] (textbookBit poly reg b) := by
  obtain ⟨n, rfl⟩ : ∃ n, w = n + 1 := ⟨w - 1, by omega⟩
  have hlow : (shiftOut poly)^[n + 1] (lowBit (n + 1) b) = shiftOut poly (lowBit (n + 1) b <<< n) := by
    rw [Function.iterate_succ_apply', iterate_shiftOut_lowBit poly b (Nat.le_refl n)]
  rw [crcBit_eq_shiftOut, shiftOut_xor, textbookBit_eq, iterate_shiftOut_xor, hlow,
    ← Function.iterate_succ_apply' (shiftOut poly) (n + 1) reg, Function.iterate_succ_apply (shiftOut poly) (n + 1) reg]

/-- Appended zero bits are shifts. -/
theorem foldl_textbookBit_zeros {w : Nat} (poly reg : BitVec w) (n : Nat) :
    (List.replicate n false).foldl (textbookBit poly) reg = (shiftOut poly)^[n] reg := by
  have hzero : ∀ r : BitVec w, textbookBit poly r false = shiftOut poly r := fun r => by
    rw [textbookBit_eq]
    exact BitVec.xor_zero
  induction n generalizing reg with
  | zero => rfl
  | succ n ih => rw [List.replicate_succ, List.foldl_cons, hzero, ih, Function.iterate_succ_apply]

/-- Settles O50: the passage between the registers keeps zero and commutes with every bit. -/
theorem crcIsTheTextbookFormWithoutAppendedZeros : Obligations.CrcIsTheTextbookFormWithoutAppendedZeros := by
  intro w poly data hw
  have hfixed : shiftOut poly 0 = 0 := crcBit_zero poly
  have hzero : (shiftOut poly)^[w] 0 = 0 := Function.iterate_fixed hfixed w
  rw [crcValue_plain, List.foldl_append, foldl_textbookBit_zeros]
  calc (data.flatMap bitsOfByte).foldl (crcBit poly) 0
      = (data.flatMap bitsOfByte).foldl (crcBit poly) ((shiftOut poly)^[w] 0) := by rw [hzero]
    _ = (shiftOut poly)^[w] ((data.flatMap bitsOfByte).foldl (textbookBit poly) 0) :=
      List.foldl_hom _ fun reg b => crcBit_iterate_shiftOut hw poly reg b

/-! ## Data followed by its own CRC -/

/-- A register fed with its own bits, from the top down, is shifted out without the polynomial. -/
theorem foldl_crcBit_own_bits {w n : Nat} (poly c : BitVec w) (hn : n ≤ w) :
    ((List.range n).map fun j => c.getLsbD (w - 1 - j)).foldl (crcBit poly) c = c <<< n := by
  induction n with
  | zero => exact (BitVec.shiftLeft_zero c).symm
  | succ n ih =>
    have htop : (c <<< n).getLsbD (w - 1) = c.getLsbD (w - 1 - n) := by
      rw [BitVec.getLsbD_shiftLeft, decide_eq_true (by omega : w - 1 < w), decide_eq_false (by omega : ¬ w - 1 < n)]
      simp
    rw [List.range_succ, List.map_append, List.foldl_append, ih (by omega), List.map_singleton, List.foldl_cons,
      List.foldl_nil, crcBit, htop, Bool.xor_self, if_neg Bool.false_ne_true, BitVec.shiftLeft_add]

/-- A register fed with bytes that hold its own bits, most significant first, is zero. -/
theorem foldl_crcBit_own_bytes {w : Nat} (poly c : BitVec w) {own : List Byte}
    (hown : own.flatMap bitsOfByte = (List.range w).map fun j => c.getLsbD (w - 1 - j)) :
    (own.flatMap bitsOfByte).foldl (crcBit poly) c = 0 := by
  rw [hown, foldl_crcBit_own_bits poly c (Nat.le_refl w)]
  exact BitVec.shiftLeft_eq_zero (Nat.le_refl w)

theorem crcValue_append_own {w : Nat} (poly init : BitVec w) (data : List Byte) {own : List Byte}
    (hown : own.flatMap bitsOfByte =
      (List.range w).map fun j => (crcValue data poly init false false 0).getLsbD (w - 1 - j)) :
    crcValue (data ++ own) poly init false false 0 = 0 := by
  have hfeed := foldl_crcBit_own_bytes poly _ hown
  rw [crcValue_plain] at hfeed
  rw [crcValue_plain, List.flatMap_append, List.foldl_append, hfeed]

theorem flatMap_bitsOfByte_8 (c : BitVec 8) :
    [c].flatMap bitsOfByte = (List.range 8).map fun j => c.getLsbD (8 - 1 - j) := rfl

theorem flatMap_bitsOfByte_16 (c : BitVec 16) :
    [c.extractLsb' 8 8, c.extractLsb' 0 8].flatMap bitsOfByte =
      (List.range 16).map fun j => c.getLsbD (16 - 1 - j) := by
  simp [bitsOfByte, List.range_succ]

/-- Settles O51: the bytes of the CRC are the register's own bits, for both widths. -/
theorem crcOfDataAndItsCrcIsZero : Obligations.CrcOfDataAndItsCrcIsZero :=
  ⟨fun poly init data => crcValue_append_own poly init data (flatMap_bitsOfByte_8 _),
    fun poly init data => crcValue_append_own poly init data (flatMap_bitsOfByte_16 _)⟩

/-! ## Empty data, leading zeros, continuation -/

theorem reflect_zero {w : Nat} (on : Bool) : reflect on (0 : BitVec w) = 0 := by
  cases on
  · rfl
  · exact BitVec.eq_of_getLsbD_eq fun i _ => by simp [reflect, BitVec.getLsbD_reverse]

/-- A zero byte leaves a zero register zero, reflected or not. -/
theorem crcByte_zero {w : Nat} (poly : BitVec w) (refin : Bool) : crcByte poly 0 (reflect refin 0) = 0 := by
  have hbits : bitsOfByte 0 = [false, false, false, false, false, false, false, false] := by decide
  rw [reflect_zero, crcByte_eq_foldl, hbits]
  simp only [List.foldl_cons, List.foldl_nil, crcBit_zero]

theorem crcValue_leading_zeros {w : Nat} (poly xorout : BitVec w) (refin refout : Bool) (data : List Byte) (n : Nat) :
    crcValue (List.replicate n 0 ++ data) poly 0 refin refout xorout = crcValue data poly 0 refin refout xorout := by
  induction n with
  | zero => rfl
  | succ n ih =>
    rw [← ih, List.replicate_succ, List.cons_append, crcValue, List.foldl_cons, crcByte_zero]
    rfl

/-- Without reflect-out and final exclusive or the CRC is the register itself, so it can be passed on as `init`. -/
theorem crcValue_append {w : Nat} (poly init xorout : BitVec w) (refin refout : Bool) (data more : List Byte) :
    crcValue (data ++ more) poly init refin refout xorout =
      crcValue more poly (crcValue data poly init refin false 0) refin refout xorout := by
  have hreg : crcValue data poly init refin false 0 = data.foldl (fun c d => crcByte poly c (reflect refin d)) init :=
    BitVec.xor_zero
  rw [hreg, crcValue, List.foldl_append]
  rfl

/-- Settles O52: the three consequences for every width and all parameters. -/
theorem crcEmptyLeadingZerosAndContinuation : Obligations.CrcEmptyLeadingZerosAndContinuation := by
  intro w poly init xorout refin refout data more n
  exact ⟨rfl, crcValue_leading_zeros poly xorout refin refout data n,
    crcValue_append poly init xorout refin refout data more⟩

end Sys2Proof.Proofs
end
